-- ==== Sys2Proof/Word.lean ====
section
/-! DEFINITION. The word and byte types of the block (00_scope.md R8, R9). -/

namespace Sys2Proof

/-- A register or command word: 32 bits (R8 `REG_WIDTH`, R20). -/
abbrev Word := BitVec 32

/-- One byte of data memory (R43). -/
abbrev Byte := BitVec 8

end Sys2Proof
end

