-- ==== Sys2Proof/Syntax.lean ====
section
/-! DEFINITION. The commands of the block, one constructor per row of the opcode table. -/

namespace Sys2Proof

/-- A command (R70, R76, R77). `w` is the W field, the element width in bytes as the word carries
it; the widths 0, 3, 5, 6 and 7 are commands too and fail when they run (R73). `dz` is the DZ bit
(R74). `ver` is a VER field that names no version (R72, R110). -/
inductive Instr where
  | nop
  | encV0 (w : BitVec 3) (dz : Bool)
  | encV1 (w : BitVec 3) (dz : Bool)
  | decV0 (w : BitVec 3) (dz : Bool)
  | decV1 (w : BitVec 3) (dz : Bool)
  | bound (w : BitVec 3)
  | dzf (w : BitVec 3)
  | dzi (w : BitVec 3)
  | encUnknown (ver : BitVec 4) (w : BitVec 3) (dz : Bool)
  | decUnknown (ver : BitVec 4) (w : BitVec 3) (dz : Bool)
  deriving DecidableEq, Repr

end Sys2Proof
end

