-- ==== Sys2Proof/WellFormed.lean ====
section
/-! DEFINITION. Which terms of `Instr` stand for a command word. -/

namespace Sys2Proof

/-- A VER field that names no StreamVByte version: 2 to 15 (R72). -/
def unknownVersion (ver : BitVec 4) : Bool := decide (2 ≤ ver.toNat)

/-- A term is well formed when some command word decodes to it. The only relation between fields
is that of the unknown-version forms: VER 0 and 1 belong to the versioned rows (R110). -/
def wellFormed : Instr → Bool
  | .nop => true
  | .encV0 _ _ => true
  | .encV1 _ _ => true
  | .decV0 _ _ => true
  | .decV1 _ _ => true
  | .bound _ => true
  | .dzf _ => true
  | .dzi _ => true
  | .encUnknown ver _ _ => unknownVersion ver
  | .decUnknown ver _ _ => unknownVersion ver

end Sys2Proof
end

