-- ==== Sys2Proof/Decode.lean ====
section
/-! DEFINITION. Decoding a command word (30_encoding.md R70 to R82) and encoding a command. -/

namespace Sys2Proof

/-- Why a word is illegal (R80). All four complete with ILLEGAL_COMMAND. -/
inductive DecodeError where
  /-- A bit of RSV, bits [31:12], is set (R75). -/
  | reservedBits
  /-- OP is 6 to 15 (R76, R81). -/
  | reservedOpcode
  /-- NOP with any of bits [11:4] set. -/
  | nopField
  /-- BOUND, DZF or DZI with VER nonzero or DZ set (R72, R74). -/
  | unusedField
  deriving DecidableEq, Repr

/-- OP, bits [3:0] (R71). -/
def opField (w : Word) : BitVec 4 := w.extractLsb' 0 4

/-- VER, bits [7:4] (R72). -/
def verField (w : Word) : BitVec 4 := w.extractLsb' 4 4

/-- W, bits [10:8] (R73). -/
def widthField (w : Word) : BitVec 3 := w.extractLsb' 8 3

/-- DZ, bit [11] (R74). -/
def dzField (w : Word) : Bool := w.getLsbD 11

/-- RSV, bits [31:12] (R75). -/
def reservedField (w : Word) : BitVec 20 := w.extractLsb' 12 20

/-- OP 1: VER selects V0, V1 or no version (R72, R76, R110). -/
def decodeEnc (ver : BitVec 4) (w : BitVec 3) (dz : Bool) : Instr :=
  if ver = 0#4 then .encV0 w dz
  else if ver = 1#4 then .encV1 w dz
  else .encUnknown ver w dz

/-- OP 2: VER selects V0, V1 or no version (R72, R76, R110). -/
def decodeDec (ver : BitVec 4) (w : BitVec 3) (dz : Bool) : Instr :=
  if ver = 0#4 then .decV0 w dz
  else if ver = 1#4 then .decV1 w dz
  else .decUnknown ver w dz

/-- A command that uses neither VER nor DZ: both must be 0 (R72, R74, R77). -/
def widthOnly (ver : BitVec 4) (dz : Bool) (i : Instr) : Except DecodeError Instr :=
  if ver = 0#4 ∧ dz = false then .ok i else .error .unusedField

/-- Decoding a command word, total (R77). -/
def decode (w : Word) : Except DecodeError Instr :=
  if reservedField w ≠ 0#20 then .error .reservedBits
  else if opField w = 0#4 then
    if verField w = 0#4 ∧ widthField w = 0#3 ∧ dzField w = false then .ok .nop
    else .error .nopField
  else if opField w = 1#4 then .ok (decodeEnc (verField w) (widthField w) (dzField w))
  else if opField w = 2#4 then .ok (decodeDec (verField w) (widthField w) (dzField w))
  else if opField w = 3#4 then widthOnly (verField w) (dzField w) (.bound (widthField w))
  else if opField w = 4#4 then widthOnly (verField w) (dzField w) (.dzf (widthField w))
  else if opField w = 5#4 then widthOnly (verField w) (dzField w) (.dzi (widthField w))
  else .error .reservedOpcode

/-- The word with the given fields and RSV = 0 (R70). -/
def packFields (op ver : BitVec 4) (w : BitVec 3) (dz : Bool) : Word :=
  0#20 ++ (BitVec.ofBool dz ++ (w ++ (ver ++ op)))

/-- The command word of a command (R70, R76, R83). -/
def encode : Instr → Word
  | .nop => packFields 0#4 0#4 0#3 false
  | .encV0 w dz => packFields 1#4 0#4 w dz
  | .encV1 w dz => packFields 1#4 1#4 w dz
  | .decV0 w dz => packFields 2#4 0#4 w dz
  | .decV1 w dz => packFields 2#4 1#4 w dz
  | .bound w => packFields 3#4 0#4 w false
  | .dzf w => packFields 4#4 0#4 w false
  | .dzi w => packFields 5#4 0#4 w false
  | .encUnknown ver w dz => packFields 1#4 ver w dz
  | .decUnknown ver w dz => packFields 2#4 ver w dz

/-- The command of a table word of `nbits` bits: one 32-bit register write (R52, R82), the bits
above `nbits` being 0. -/
def decodeTableWord (nbits w : Nat) : Option Instr :=
  match decode (BitVec.ofNat 32 (w % 2 ^ nbits)) with
  | .ok i => some i
  | .error _ => none

end Sys2Proof
end

