-- ==== Sys2Proof/Config.lean ====
section
/-! DEFINITION. What the platform fixes, what the spec leaves open, and the block's constants. -/

namespace Sys2Proof

/-- A byte range `[base, base + size)` on natural numbers (R15). -/
structure Region where
  base : Nat
  size : Nat
  deriving DecidableEq, Repr

/-- The parameters the spec leaves to the platform (R8, R58, R59, R67): fixed for the machine,
written by no step. -/
structure Platform where
  /-- REG_BASE in units of the 4 KiB window (D42: the base is 4 KiB aligned). The 20 bits put the
  whole window below 2^32, which the spec leaves open: DESIGN CHOICE, log entry 22. -/
  regPage : BitVec 20
  /-- The data addresses at which an access is not served (`busError`, R67). -/
  unserved : List Region
  /-- The data addresses that map a device with side effects (R58). -/
  devices : List Region
  deriving DecidableEq, Repr

/-- The identity word of the ID register (R3, R22). -/
def Config.idWord : Word := 0x53564231#32

/-- The number of byte addresses (R8 `ADDR_WIDTH`, R43). -/
abbrev Config.addressSpace : Nat := 2 ^ 32

/-- The size of the register window in bytes (R20, R59). -/
abbrev Config.windowSize : Nat := 0x1000

/-- REG_BASE, OPEN (R8, D42): the page of the register window, log entry 6; that it lies below 2^32
is log entry 22. -/
opaque Config.regPage : BitVec 20

/-- Which data addresses the platform does not serve, OPEN (R59, R67, D35). Log entry 6. -/
opaque Config.unserved : List Region

/-- Which data addresses map a device with side effects, OPEN (R58, R59). Log entry 6. -/
opaque Config.devices : List Region

/-- The k-th byte the spec leaves unspecified (R202, R209): a free value. Log entry 5. -/
opaque Config.freeByte : Nat → Byte

end Sys2Proof
end

