-- ==== Sys2Proof/Machine/State.lean ====
section
/-! DEFINITION. The state of the block (10_state.md), of its data memory and of its two agents'
interface, with the reasons a step can stop and the state after reset. -/

namespace Sys2Proof.Machine

/-- The five operand registers (R30 to R34). State holds them twice: as the host sees them and as
the engine latched them (R35). -/
structure Operands where
  srcAddr : Word
  srcLen : Word
  dstAddr : Word
  dstCap : Word
  count : Word
  deriving DecidableEq, Repr

/-- The fields of STATUS (R24 to R28). The reserved bits read zero and are not stored. -/
structure Status where
  busy : Bool
  done : Bool
  ovr : Bool
  err : BitVec 4
  deriving DecidableEq, Repr

/-- Data memory (R43): the bytes that differ from 0, by address, addresses strictly rising.
A byte that is not listed reads 0 (log entry 7). -/
abbrev Memory := List Host.Cell

/-- One access of the host (R16, R39, R84, R85). -/
inductive HostAccess where
  /-- A register-port read of `size` bytes at a byte offset from REG_BASE. -/
  | regRead (offset size : Nat)
  /-- A register-port write of `size` bytes at a byte offset from REG_BASE. -/
  | regWrite (offset size : Nat) (value : Word)
  /-- A data-memory read of `size` bytes. -/
  | memRead (addr : Word) (size : Nat)
  /-- A data-memory write of the given bytes, the first at the lowest address. -/
  | memWrite (addr : Word) (bytes : List Byte)
  deriving DecidableEq, Repr

/-- What stands at the block's inputs in one step: the `rst` input, and a host access if the host
makes one (R4, R16). A slot with neither is the engine's turn (log entry 2). -/
structure Slot where
  rst : Bool
  host : Option HostAccess
  deriving DecidableEq, Repr

/-- The data the host's last read returned (log entry 4). -/
inductive Reply where
  | noRead
  | reg (value : Word)
  | mem (bytes : List Byte)
  deriving DecidableEq, Repr

/-- Everything the spec gives the machine, as plain data. -/
structure State where
  /-- CTRL.IE (R23). -/
  ie : Bool
  /-- STATUS (R24). BUSY is also the engine phase (R45(a)). -/
  status : Status
  /-- CMD (R29). -/
  cmd : Word
  /-- The operand registers as the host sees them (R30 to R34). -/
  regs : Operands
  /-- The latched operands (R35). -/
  op : Operands
  /-- RESULT (R36). -/
  result : Word
  /-- IN_USED (R37). -/
  inUsed : Word
  /-- Data memory (R43). -/
  mem : Memory
  /-- The platform's parameters (R8): no step changes them. -/
  platform : Platform
  /-- The model's own: the host's and the `rst` input's events to come, in order (log entry 2). -/
  inputs : List Slot
  /-- The model's own: the data of the host's last read (log entry 4). -/
  reply : Reply
  /-- The model's own: how many free bytes have been drawn (log entry 5). -/
  draws : Nat
  deriving DecidableEq, Repr

/-- The reasons the machine stops with a fault. All are safe: the model stops where the spec
says that a run has no defined result, or where the platform cannot serve an access. -/
inductive Fault where
  /-- A command accesses a data address the platform does not serve (R67, `busError`). Raised by
  the commands that reach data memory. Safe. -/
  | engineBusError
  /-- The host writes a byte of an active command's source or write region: hazard HZ1 (R208).
  Raised by a host memory write while BUSY = 1. Safe. -/
  | hostWritesActiveRegion
  /-- A host data access at an address that holds no memory on this platform (R59). Raised by a
  host memory access. Safe. -/
  | hostBusError
  /-- A host data access beyond address 2^32 - 1 (R43, R54: addresses never wrap). Raised by a
  host memory access. Safe. -/
  | hostLeavesAddressSpace
  deriving DecidableEq, Repr

/-- The reasons the machine gives no meaning. All are safe: the model accepts fewer runs. -/
inductive Refusal where
  /-- A command without a meaning. Raised by no arm of this model. Safe. -/
  | notModelled (mnemonic : String)
  /-- A register-port access that is not a 32-bit access at a multiple of 4 inside the window
  (R39). Raised by a register access. Safe. -/
  | registerAccessForm
  /-- A command whose declared region maps a device or the register window (R58). Raised by the
  CMD write that would launch it; and by a command about to access data memory, in a state that no
  launch leaves (log entries 9 and 21). Safe. -/
  | regionNotPlainMemory
  /-- A host data access that reaches a device or the register window on the memory side (R44,
  R58): the spec does not say what it does. Raised by a host memory access. Safe. -/
  | hostAccessNotPlainMemory
  deriving DecidableEq, Repr

/-- What a step answers. -/
abbrev StepResult := Host.Outcome State Fault Refusal

/-- The operand registers after reset (R47). -/
def Operands.zero : Operands := ⟨0#32, 0#32, 0#32, 0#32, 0#32⟩

/-- STATUS after reset (R47, R200). -/
def Status.zero : Status := ⟨false, false, false, 0#4⟩

/-- The machine right after reset (R47), with no memory byte listed, no host event to come and
the platform's parameters left open (log entries 2, 4, 5, 6, 7). -/
def State.reset : State where
  ie := false
  status := Status.zero
  cmd := 0#32
  regs := Operands.zero
  op := Operands.zero
  result := 0#32
  inUsed := 0#32
  mem := []
  platform := ⟨Config.regPage, Config.unserved, Config.devices⟩
  inputs := []
  reply := .noRead
  draws := 0

end Sys2Proof.Machine
end

