-- ==== Sys2Proof/Machine/Flags.lean ====
section
/-! DEFINITION. The block's only flags: the fields of STATUS (R24 to R28, R41), the error codes
(R172), the words software reads, and the interrupt output (R46). -/

namespace Sys2Proof.Machine

/-- The error causes (R171). -/
inductive ErrorCause where
  | illegalCommand
  | inputSize
  | unknownVersion
  | addressError
  | overlap
  | destinationTooSmall
  | inputCorrupted
  | resultRange
  deriving DecidableEq, Repr

/-- The number of an error in STATUS.ERR (R172). -/
def errorCode : ErrorCause → BitVec 4
  | .illegalCommand => 1#4
  | .inputSize => 2#4
  | .unknownVersion => 3#4
  | .addressError => 4#4
  | .overlap => 5#4
  | .destinationTooSmall => 6#4
  | .inputCorrupted => 7#4
  | .resultRange => 8#4

/-- STATUS as software reads it: reserved bits zero (R24). -/
def statusWord (f : Status) : Word :=
  0#20 ++ (f.err ++ (0#5 ++ (BitVec.ofBool f.ovr ++ (BitVec.ofBool f.done ++ BitVec.ofBool f.busy))))

/-- CTRL as software reads it: SRST and the reserved bits zero (R23). -/
def ctrlWord (ie : Bool) : Word := 0#31 ++ BitVec.ofBool ie

/-- STATUS after acceptance: BUSY set, DONE and ERR cleared, OVR kept (R25 to R29). -/
def acceptedStatus (f : Status) : Status :=
  { f with busy := true, done := false, err := 0#4 }

/-- STATUS after a completion with the given ERR value: OVR kept (R175, R176). -/
def completedStatus (err : BitVec 4) (f : Status) : Status :=
  { f with busy := false, done := true, err := err }

/-- STATUS after a CMD write that is not accepted (R27). -/
def overrunStatus (f : Status) : Status := { f with ovr := true }

/-- STATUS after a write of `v`: bit 1 clears DONE, bit 2 clears OVR, nothing else (R24). -/
def writeStatus (v : Word) (f : Status) : Status :=
  { f with done := f.done && !v.getLsbD 1, ovr := f.ovr && !v.getLsbD 2 }

/-- The interrupt output, a level (R46, R179). -/
def State.irq (s : State) : Bool := s.ie && s.status.done

end Sys2Proof.Machine
end

