-- ==== Sys2Proof/Machine/Ops.lean ====
section
/-! DEFINITION. The named operations over bytes, memory and registers; accepting a command;
completing one with success or with an error (the block's way of taking an exception). -/

namespace Sys2Proof.Machine

/-! ## Bytes, little-endian (R12, R50) -/

/-- The natural number of a list of bytes, the first byte least significant. -/
def leNat : List Byte → Nat
  | [] => 0
  | b :: bs => b.toNat + 256 * leNat bs

/-- The `n` low bytes of `v`, least significant first. -/
def leBytes : Nat → Nat → List Byte
  | 0, _ => []
  | n + 1, v => BitVec.ofNat 8 v :: leBytes n (v / 256)

/-! ## Data memory (R43) -/

/-- The canonical form: addresses strictly rising and inside the address space, and no listed
byte that an unlisted address would read as. -/
abbrev Memory.wf (m : Memory) : Prop :=
  m.Pairwise (fun c d => c.1 < d.1) ∧ ∀ c ∈ m, c.1 < Config.addressSpace ∧ c.2 ≠ 0#8

/-- One byte of data memory. An unlisted address reads 0 (log entry 7). -/
def Memory.read : Memory → Nat → Byte
  | [], _ => 0#8
  | c :: m, a => if c.1 = a then c.2 else Memory.read m a

/-- Writing one byte, keeping the canonical form. -/
def Memory.write : Memory → Nat → Byte → Memory
  | [], a, b => if b = 0#8 then [] else [(a, b)]
  | c :: m, a, b =>
    if a < c.1 then (if b = 0#8 then c :: m else (a, b) :: c :: m)
    else if a = c.1 then (if b = 0#8 then m else (a, b) :: m)
    else c :: Memory.write m a b

/-- The `n` bytes from address `a` up. -/
def readBytes (m : Memory) (a : Nat) : Nat → List Byte
  | 0 => []
  | n + 1 => m.read a :: readBytes m (a + 1) n

/-- Writing a list of bytes from address `a` up. -/
def writeBytes (m : Memory) (a : Nat) : List Byte → Memory
  | [] => m
  | b :: bs => writeBytes (m.write a b) (a + 1) bs

/-- MemRead (R12): the little-endian value of the `n` bytes from `a` up. -/
def memRead (m : Memory) (a n : Nat) : Nat := leNat (readBytes m a n)

/-! ## Acceptance and completion -/

/-- Acceptance of command word `w` (R29, R35): CMD, the five latched operands, BUSY, DONE, ERR. -/
def acceptCommand (w : Word) (s : State) : State :=
  { s with cmd := w, op := s.regs, status := acceptedStatus s.status }

/-- What every completion step writes (R175, R176). -/
def completionStep (err : BitVec 4) (result used : Word) (s : State) : State :=
  { s with status := completedStatus err s.status, result := result, inUsed := used }

/-- Successful completion, `complete(result, used)`, the memory writes being done (R176). -/
def complete (result used : Nat) (s : State) : State :=
  completionStep 0#4 (BitVec.ofNat 32 result) (BitVec.ofNat 32 used) s

/-- `raise`: completion with an error, which writes no memory (R12, R175). This is the block's
one way of taking an exception. -/
def raiseError (e : ErrorCause) (s : State) : State :=
  completionStep (errorCode e) 0#32 0#32 s

/-- The host's acknowledge of a completion, or any other write to STATUS (R24, R178): the block's
only return from an exception. -/
def acknowledge (v : Word) (s : State) : State :=
  { s with status := writeStatus v s.status }

/-- Storing bytes to data memory. -/
def storeBytes (a : Nat) (bs : List Byte) (s : State) : State :=
  { s with mem := writeBytes s.mem a bs }

/-- The next `n` free bytes (R202, R209): unspecified values, drawn from the counter. -/
def freeBytes (draws n : Nat) : List Byte :=
  (List.range n).map fun k => Config.freeByte (draws + k)

end Sys2Proof.Machine
end

