-- ==== Sys2Proof/Machine/Operands.lean ====
section
/-! DEFINITION. Every operand form: element widths (R73), element sequences in memory (R50, R106,
R149), regions and the checks on them (R54, R55, R58, R67), and the regions of an active command
(R202, R208). -/

namespace Sys2Proof.Machine

/-! ## Element widths and elements -/

/-- The legal element widths in bytes (R8, R73). -/
def legalWidth (w : BitVec 3) : Bool := w = 1#3 || w = 2#3 || w = 4#3

/-- The element width in bytes: the W field, not scaled (R73, R79). -/
abbrev widthBytes (w : BitVec 3) : Nat := w.toNat

/-- The condition of INPUT_SIZE for ENC, DZF and DZI: the width is not legal, or it does not divide
SRC_LEN (R108, R145, R171). -/
def badInputSize (w : BitVec 3) (op : Operands) : Bool :=
  !legalWidth w || op.srcLen.toNat % widthBytes w != 0

/-- The `n` elements of `W` bytes from address `a` up, element i at `a + i*W` (R50, R56). -/
def readElements (m : Memory) (W : Nat) : Nat → Nat → List (BitVec (8 * W))
  | _, 0 => []
  | a, n + 1 => BitVec.ofNat (8 * W) (memRead m a W) :: readElements m W (a + W) n

/-- The bytes of a sequence of elements, each little-endian in `W` bytes (R50). -/
def elementBytes (W : Nat) (xs : List (BitVec (8 * W))) : List Byte :=
  xs.flatMap fun x => leBytes W x.toNat

/-! ## Regions -/

/-- `region_ok` (R54). -/
def regionOk (a n : Nat) : Bool := decide (a + n ≤ Config.addressSpace)

/-- `overlap` (R55). -/
def overlap (a n b m : Nat) : Bool := decide (0 < n ∧ 0 < m ∧ a < b + m ∧ b < a + n)

/-- Whether address `a` lies in a region. -/
def regionHas (r : Region) (a : Nat) : Bool := decide (r.base ≤ a ∧ a < r.base + r.size)

/-- Whether two regions share a byte. -/
def regionsMeet (r q : Region) : Bool := overlap r.base r.size q.base q.size

/-- REG_BASE (R8, D42), below 2^32 by the model's choice (log entry 22). -/
def regBase (p : Platform) : Nat := p.regPage.toNat * Config.windowSize

/-- Whether every access in a region is served (R67). A region of no byte is. -/
def served (p : Platform) (r : Region) : Bool :=
  r.size = 0 || p.unserved.all fun u => !regionsMeet r u

/-- Whether a region is plain memory: it maps no device with side effects and does not meet the
register window (R58). A region of no byte is. -/
def plainMemory (p : Platform) (r : Region) : Bool :=
  r.size = 0
    || (!regionsMeet r ⟨regBase p, Config.windowSize⟩ && p.devices.all fun d => !regionsMeet r d)

/-- The declared source region (R15, R55). -/
def sourceOf (op : Operands) : Region := ⟨op.srcAddr.toNat, op.srcLen.toNat⟩

/-- The declared destination region (R15, R55). -/
def destOf (op : Operands) : Region := ⟨op.dstAddr.toNat, op.dstCap.toNat⟩

/-- The condition of ADDRESS_ERROR for one region (R54). -/
def wraps (r : Region) : Bool := !regionOk r.base r.size

/-- The region of no byte. -/
def noRegion : Region := ⟨0, 0⟩

/-- The source region a command declares (R15, R56). -/
def sourceRegion (op : Operands) : Instr → Region
  | .nop => noRegion
  | .encV0 _ _ => sourceOf op
  | .encV1 _ _ => sourceOf op
  | .decV0 _ _ => sourceOf op
  | .decV1 _ _ => sourceOf op
  | .bound _ => noRegion
  | .dzf _ => sourceOf op
  | .dzi _ => sourceOf op
  | .encUnknown _ _ _ => sourceOf op
  | .decUnknown _ _ _ => sourceOf op

/-- The write region of a command (R202). -/
def writeRegion (op : Operands) : Instr → Region
  | .nop => noRegion
  | .encV0 _ _ => destOf op
  | .encV1 _ _ => destOf op
  | .decV0 _ _ => destOf op
  | .decV1 _ _ => destOf op
  | .bound _ => noRegion
  | .dzf _ => sourceOf op
  | .dzi _ => sourceOf op
  | .encUnknown _ _ _ => destOf op
  | .decUnknown _ _ _ => destOf op

/-- The region `f` gives for the active command: none while idle, none for an illegal word. -/
def activeRegion (f : Operands → Instr → Region) (s : State) : Region :=
  if s.status.busy then
    match decode s.cmd with
    | .ok i => f s.op i
    | .error _ => noRegion
  else noRegion

/-- The active command's declared source region (R208). -/
def activeSource (s : State) : Region := activeRegion sourceRegion s

/-- The active command's write region (R202, R208, R209). -/
def activeWrite (s : State) : Region := activeRegion writeRegion s

/-- Every region the active command declares is plain memory (R58). -/
def declaredPlain (s : State) : Bool :=
  plainMemory s.platform (activeSource s) && plainMemory s.platform (activeWrite s)

end Sys2Proof.Machine
end

