-- ==== Sys2Proof/Machine/Transform.lean ====
section
/-! DEFINITION. The delta and zig-zag pre-transform (41_delta_zigzag.md R140 to R149), at any
width of `n` bits; the commands use n = 8W. -/

namespace Sys2Proof.Machine

/-- All ones or all zeros at width `n`: the sign of `s` spread by an arithmetic right shift, or the
negated low bit (R140, R141). -/
def spread (n : Nat) (b : Bool) : BitVec n := if b then BitVec.allOnes n else 0#n

/-- Forward zig-zag `zz_W` (R140). -/
def zigzag {n : Nat} (s : BitVec n) : BitVec n := (s <<< 1) ^^^ spread n s.msb

/-- Inverse zig-zag `unzz_W` (R141). -/
def unzigzag {n : Nat} (u : BitVec n) : BitVec n := (u >>> 1) ^^^ spread n (u.getLsbD 0)

/-- Forward delta from a previous element (R142). -/
def forwardDelta {n : Nat} : BitVec n → List (BitVec n) → List (BitVec n)
  | _, [] => []
  | prev, x :: xs => (x - prev) :: forwardDelta x xs

/-- Inverse delta, the prefix sum, from a previous element (R143). -/
def inverseDelta {n : Nat} : BitVec n → List (BitVec n) → List (BitVec n)
  | _, [] => []
  | prev, d :: ds => (prev + d) :: inverseDelta (prev + d) ds

/-- The forward pre-transform: delta from 0, then zig-zag (R107, R145, R147). -/
def forwardTransform {n : Nat} (xs : List (BitVec n)) : List (BitVec n) :=
  (forwardDelta 0#n xs).map zigzag

/-- The inverse pre-transform: inverse zig-zag, then prefix sum from 0 (R114, R146, R147). -/
def inverseTransform {n : Nat} (us : List (BitVec n)) : List (BitVec n) :=
  inverseDelta 0#n (us.map unzigzag)

end Sys2Proof.Machine
end

