-- ==== Sys2Proof/Machine/Stream.lean ====
section
/-! DEFINITION. The StreamVByte stream (40_streamvbyte.md R100 to R107, R112, R116): key codes,
the two key packings, the data stream, and the sequences a stream is made from and read into. -/

namespace Sys2Proof.Machine

/-! ## Key codes and sizes -/

/-- `keycode` (R100). -/
def keycode (v : Word) : BitVec 2 :=
  if v.toNat < 0x100 then 0#2
  else if v.toNat < 0x10000 then 1#2
  else if v.toNat < 0x1000000 then 2#2
  else 3#2

/-- The number of data bytes a key code stands for (R100, R113). -/
def codeLen (c : BitVec 2) : Nat := c.toNat + 1

/-- `keylen` (R100). -/
def keylen (v : Word) : Nat := codeLen (keycode v)

/-- `keybytes` (R101): the ceiling of N/4. -/
def keybytes (n : Nat) : Nat := (n + 3) / 4

/-- The encoded-size bound (R111, R117). -/
def sizeBound (n : Nat) : Nat := keybytes n + 4 * n

/-! ## Writing a stream -/

/-- The code of value `i` as a number, 0 where there is no such value (R103). -/
def codeAt (vs : List Word) (i : Nat) : Nat :=
  match vs[i]? with
  | some v => (keycode v).toNat
  | none => 0

/-- V0 key byte `j`: the codes of values 4j to 4j+3, low code in the low two bits (R103). -/
def keyByteV0 (vs : List Word) (j : Nat) : Byte :=
  BitVec.ofNat 8 ((codeAt vs (4 * j) <<< 0) + (codeAt vs (4 * j + 1) <<< 2)
    + (codeAt vs (4 * j + 2) <<< 4) + (codeAt vs (4 * j + 3) <<< 6))

/-- The V0 key stream (R103). -/
def keyStreamV0 (vs : List Word) : List Byte :=
  (List.range (keybytes vs.length)).map (keyByteV0 vs)

/-- The V1 bit string as a number whose bit b is stream bit b: code i at bits [2i+1:2i], zeros
above (R104). -/
def keyStringV1 : List Word → Nat
  | [] => 0
  | v :: vs => (keycode v).toNat + (keyStringV1 vs <<< 2)

/-- The V1 key stream: byte j is stream bits [8j+7:8j] (R104, R109). -/
def keyStreamV1 (vs : List Word) : List Byte :=
  (List.range (keybytes vs.length)).map fun j => BitVec.ofNat 8 (keyStringV1 vs >>> (8 * j))

/-- The low `keylen` bytes of a value, least significant first (R102). -/
def valueBytes (v : Word) : List Byte := leBytes (keylen v) v.toNat

/-- The data stream (R102). -/
def dataStream (vs : List Word) : List Byte := vs.flatMap valueBytes

/-- An encoded stream: the key stream, then the data stream, nothing between or after (R102). -/
def encodedStream (keyStream : List Word → List Byte) (vs : List Word) : List Byte :=
  keyStream vs ++ dataStream vs

/-- The optional forward transform and the widening by zero-extension (R106, R107). -/
def encoderValues (W : Nat) (dz : Bool) (xs : List (BitVec (8 * W))) : List Word :=
  (if dz then forwardTransform xs else xs).map (BitVec.setWidth 32)

/-! ## Reading a stream -/

/-- The V0 code of value `i`: bits [2(i mod 4)+1 : 2(i mod 4)] of key byte i/4 (R103, R112). -/
def readCodeV0 (keys : List Byte) (i : Nat) : BitVec 2 :=
  (keys.getD (i / 4) 0#8).extractLsb' (2 * (i % 4)) 2

/-- The V1 code of value `i`: stream bits [2i+1:2i] of the key bit string (R104, R115). -/
def readCodeV1 (keys : List Byte) (i : Nat) : BitVec 2 :=
  BitVec.ofNat 2 (leNat keys >>> (2 * i))

/-- The data bytes the codes imply (R113). -/
def dataLength (codes : List (BitVec 2)) : Nat := (codes.map codeLen).sum

/-- The values of a data stream, each zero-extended to 32 bits (R102, R114). -/
def splitValues : List (BitVec 2) → List Byte → List Word
  | [], _ => []
  | c :: cs, bs => BitVec.ofNat 32 (leNat (bs.take (codeLen c))) :: splitValues cs (bs.drop (codeLen c))

/-- Truncation to the element width and the optional inverse transform (R114, R116). -/
def decoderElements (W : Nat) (dz : Bool) (vs : List Word) : List (BitVec (8 * W)) :=
  let ts := vs.map (BitVec.setWidth (8 * W))
  if dz then inverseTransform ts else ts

end Sys2Proof.Machine
end

