-- ==== Sys2Proof/Machine/Bound.lean ====
section
/-! DEFINITION. The encoded-size bound (40_streamvbyte.md R117). -/

namespace Sys2Proof.Machine

/-- The element count of BOUND: the ceiling of SRC_LEN / W (R117). -/
def boundCount (w : BitVec 3) (op : Operands) : Nat :=
  (op.srcLen.toNat + widthBytes w - 1) / widthBytes w

/-- svb.bound (R117). -/
def execBound (w : BitVec 3) (s : State) : StepResult :=
  if !legalWidth w then .next (raiseError .inputSize s)
  else if 2 ^ 32 - 1 < sizeBound (boundCount w s.op) then .next (raiseError .resultRange s)
  else .next (complete (sizeBound (boundCount w s.op)) 0 s)

end Sys2Proof.Machine
end

