-- ==== Sys2Proof/Machine/Control.lean ====
section
/-! DEFINITION. The control command (42_control.md). -/

namespace Sys2Proof.Machine

/-- svb.nop (R160). -/
def execNop (s : State) : StepResult := .next (complete 0 0 s)

end Sys2Proof.Machine
end

