-- ==== Sys2Proof/Machine/Decoder.lean ====
section
/-! DEFINITION. The decode commands (40_streamvbyte.md R110, R112 to R116, R120). -/

namespace Sys2Proof.Machine

/-- The data stage of a decode, the codes being known: corruption check, reads, writes, completion
(R113, R114). Bytes of the source after the stream are ignored (R120). -/
def readStream (w : BitVec 3) (dz : Bool) (codes : List (BitVec 2)) (s : State) : StepResult :=
  let keys := keybytes s.op.count.toNat
  let total := keys + dataLength codes
  if s.op.srcLen.toNat < total then .next (raiseError .inputCorrupted s)
  else if !served s.platform ⟨s.op.srcAddr.toNat + keys, dataLength codes⟩
      || !served s.platform ⟨s.op.dstAddr.toNat, widthBytes w * s.op.count.toNat⟩ then
    .fault .engineBusError
  else
    let values := splitValues codes (readBytes s.mem (s.op.srcAddr.toNat + keys) (dataLength codes))
    .next (complete (widthBytes w * s.op.count.toNat) total
      (storeBytes s.op.dstAddr.toNat
        (elementBytes (widthBytes w) (decoderElements (widthBytes w) dz values)) s))

/-- The codes a decode reads from its key stream (R112). -/
def decoderCodes (readCode : List Byte → Nat → BitVec 2) (s : State) : List (BitVec 2) :=
  (List.range s.op.count.toNat).map
    (readCode (readBytes s.mem s.op.srcAddr.toNat (keybytes s.op.count.toNat)))

/-- StreamVByte decode with a key reading (R114, R115): the checks in the order of R174, capacity
before corruption (D23). The regions must be served (R67) where they are accessed; the launch
has made sure that they are plain memory (R58), and a state that skipped it is refused here (log
entry 21). -/
def decodeCommand (readCode : List Byte → Nat → BitVec 2) (w : BitVec 3) (dz : Bool) (s : State) :
    StepResult :=
  if !legalWidth w then .next (raiseError .inputSize s)
  else if wraps (sourceOf s.op) || wraps (destOf s.op) then .next (raiseError .addressError s)
  else if regionsMeet (sourceOf s.op) (destOf s.op) then .next (raiseError .overlap s)
  else if s.op.dstCap.toNat < widthBytes w * s.op.count.toNat then
    .next (raiseError .destinationTooSmall s)
  else if s.op.srcLen.toNat < keybytes s.op.count.toNat then .next (raiseError .inputCorrupted s)
  else if !plainMemory s.platform (sourceOf s.op) || !plainMemory s.platform (destOf s.op) then
    .refused .regionNotPlainMemory
  else if !served s.platform ⟨s.op.srcAddr.toNat, keybytes s.op.count.toNat⟩ then
    .fault .engineBusError
  else readStream w dz (decoderCodes readCode s) s

/-- svb.dec.v0 (R114). -/
def execDecV0 (w : BitVec 3) (dz : Bool) (s : State) : StepResult :=
  decodeCommand readCodeV0 w dz s

/-- svb.dec.v1 (R115). -/
def execDecV1 (w : BitVec 3) (dz : Bool) (s : State) : StepResult :=
  decodeCommand readCodeV1 w dz s

/-- A DEC word that names no version (R110): it reaches no memory. -/
def execDecUnknown (_ver : BitVec 4) (w : BitVec 3) (_dz : Bool) (s : State) : StepResult :=
  if !legalWidth w then .next (raiseError .inputSize s)
  else .next (raiseError .unknownVersion s)

end Sys2Proof.Machine
end

