-- ==== Sys2Proof/Machine/Encoder.lean ====
section
/-! DEFINITION. The encode commands (40_streamvbyte.md R106 to R111). -/

namespace Sys2Proof.Machine

/-- The values an encode command packs (R107). -/
def encoderInput (w : BitVec 3) (dz : Bool) (s : State) : List Word :=
  encoderValues (widthBytes w) dz
    (readElements s.mem (widthBytes w) s.op.srcAddr.toNat (s.op.srcLen.toNat / widthBytes w))

/-- The stream stage of an encode: size check, writes, completion (R108). -/
def writeStream (used : Nat) (out : List Byte) (s : State) : StepResult :=
  if s.op.dstCap.toNat < out.length then .next (raiseError .destinationTooSmall s)
  else if !served s.platform ⟨s.op.dstAddr.toNat, out.length⟩ then .fault .engineBusError
  else .next (complete out.length used (storeBytes s.op.dstAddr.toNat out s))

/-- StreamVByte encode with a key packing (R108, R109): the checks in the order of R174. The
source and destination must be served (R67) where they are accessed; the launch has made sure that
they are plain memory (R58), and a state that skipped it is refused here (log entry 21). -/
def encodeCommand (keyStream : List Word → List Byte) (w : BitVec 3) (dz : Bool) (s : State) :
    StepResult :=
  if badInputSize w s.op then .next (raiseError .inputSize s)
  else if wraps (sourceOf s.op) || wraps (destOf s.op) then .next (raiseError .addressError s)
  else if regionsMeet (sourceOf s.op) (destOf s.op) then .next (raiseError .overlap s)
  else if !plainMemory s.platform (sourceOf s.op) || !plainMemory s.platform (destOf s.op) then
    .refused .regionNotPlainMemory
  else if !served s.platform (sourceOf s.op) then .fault .engineBusError
  else
    writeStream (s.op.srcLen.toNat / widthBytes w * widthBytes w)
      (encodedStream keyStream (encoderInput w dz s)) s

/-- svb.enc.v0 (R108). -/
def execEncV0 (w : BitVec 3) (dz : Bool) (s : State) : StepResult :=
  encodeCommand keyStreamV0 w dz s

/-- svb.enc.v1 (R109). -/
def execEncV1 (w : BitVec 3) (dz : Bool) (s : State) : StepResult :=
  encodeCommand keyStreamV1 w dz s

/-- An ENC word that names no version (R110): it reaches no memory. -/
def execEncUnknown (_ver : BitVec 4) (w : BitVec 3) (_dz : Bool) (s : State) : StepResult :=
  if badInputSize w s.op then .next (raiseError .inputSize s)
  else .next (raiseError .unknownVersion s)

end Sys2Proof.Machine
end

