-- ==== Sys2Proof/Machine/Pretransform.lean ====
section
/-! DEFINITION. The in-place pre-transform commands (41_delta_zigzag.md R145, R146). -/

namespace Sys2Proof.Machine

/-- A transform of the source region in place (R145, R146): the checks in the order of R174, then
every element read, transformed and written back. The region is served (R67); the launch has made
sure that it is plain memory (R58), and a state that skipped it is refused here (log entry 21). -/
def transformCommand (f : (n : Nat) → List (BitVec n) → List (BitVec n)) (w : BitVec 3)
    (s : State) : StepResult :=
  if badInputSize w s.op then .next (raiseError .inputSize s)
  else if wraps (sourceOf s.op) then .next (raiseError .addressError s)
  else if !plainMemory s.platform (sourceOf s.op) then .refused .regionNotPlainMemory
  else if !served s.platform (sourceOf s.op) then .fault .engineBusError
  else
    let xs := readElements s.mem (widthBytes w) s.op.srcAddr.toNat
      (s.op.srcLen.toNat / widthBytes w)
    .next (complete s.op.srcLen.toNat s.op.srcLen.toNat
      (storeBytes s.op.srcAddr.toNat (elementBytes (widthBytes w) (f _ xs)) s))

/-- svb.dzf (R145). -/
def execDzf (w : BitVec 3) (s : State) : StepResult :=
  transformCommand (fun _ xs => forwardTransform xs) w s

/-- svb.dzi (R146). -/
def execDzi (w : BitVec 3) (s : State) : StepResult :=
  transformCommand (fun _ xs => inverseTransform xs) w s

end Sys2Proof.Machine
end

