-- ==== Sys2Proof/Machine/Dispatch.lean ====
section
/-! DEFINITION. The dispatch: one arm per command, each a direct call of its meaning. -/

namespace Sys2Proof.Machine

/-- The engine's completion step of a command (R62, R175, R176). -/
def exec (i : Instr) (s : State) : Host.Outcome State Fault Refusal :=
  match i with
  | .nop => Sys2Proof.Machine.execNop s
  | .encV0 w dz => Sys2Proof.Machine.execEncV0 w dz s
  | .encV1 w dz => Sys2Proof.Machine.execEncV1 w dz s
  | .decV0 w dz => Sys2Proof.Machine.execDecV0 w dz s
  | .decV1 w dz => Sys2Proof.Machine.execDecV1 w dz s
  | .bound w => Sys2Proof.Machine.execBound w s
  | .dzf w => Sys2Proof.Machine.execDzf w s
  | .dzi w => Sys2Proof.Machine.execDzi w s
  | .encUnknown ver w dz => Sys2Proof.Machine.execEncUnknown ver w dz s
  | .decUnknown ver w dz => Sys2Proof.Machine.execDecUnknown ver w dz s

end Sys2Proof.Machine
end

