-- ==== Sys2Proof/Machine/Reset.lean ====
section
/-! DEFINITION. Reset of the block, by `rst` or by CTRL.SRST (70_reset_and_hazards.md R200 to R205). -/

namespace Sys2Proof.Machine

/-- The bytes of a region that exist: those below the end of the address space. -/
def existingSize (r : Region) : Nat := min r.size (Config.addressSpace - r.base)

/-- How many bytes an abort leaves unspecified (R202). -/
def abortedCount (s : State) : Nat := existingSize (activeWrite s)

/-- Data memory after a reset: each byte of the active command's write region is a free draw, every
other byte is as before (R201, R202). -/
def abortedMemory (s : State) : Memory :=
  writeBytes s.mem (activeWrite s).base (freeBytes s.draws (abortedCount s))

/-- Reset (R200): every register and latched copy at its value of R47, an active command aborted.
The host side (`inputs`, `reply`) and the platform are not the block's to reset. -/
def resetBlock (s : State) : State :=
  { s with
    ie := false
    status := Status.zero
    cmd := 0#32
    regs := Operands.zero
    op := Operands.zero
    result := 0#32
    inUsed := 0#32
    mem := abortedMemory s
    draws := s.draws + abortedCount s }

end Sys2Proof.Machine
end

