-- ==== Sys2Proof/Machine/HostPort.lean ====
section
/-! DEFINITION. The host's accesses: the register port (10_state.md R20 to R40) and the data memory
(20_memory.md R61, 70_reset_and_hazards.md R208, R209). -/

namespace Sys2Proof.Machine

/-- The registers of the window (R20). -/
inductive Reg where
  | id | ctrl | status | cmd | srcAddr | srcLen | dstAddr | dstCap | count | result | inUsed
  deriving DecidableEq, Repr

/-- The register at an offset; none at a reserved one (R20, R38). -/
def regAt (offset : Nat) : Option Reg :=
  if offset = 0x000 then some .id
  else if offset = 0x004 then some .ctrl
  else if offset = 0x008 then some .status
  else if offset = 0x00C then some .cmd
  else if offset = 0x010 then some .srcAddr
  else if offset = 0x014 then some .srcLen
  else if offset = 0x018 then some .dstAddr
  else if offset = 0x01C then some .dstCap
  else if offset = 0x020 then some .count
  else if offset = 0x024 then some .result
  else if offset = 0x028 then some .inUsed
  else none

/-- The register-port accesses the block serves: 32 bits, aligned, inside the window (R39). -/
def registerAccessServed (offset size : Nat) : Bool :=
  decide (size = 4 ∧ offset % 4 = 0 ∧ offset < Config.windowSize)

/-- What a register reads as (R22 to R37, R40). -/
def readReg (s : State) : Reg → Word
  | .id => Config.idWord
  | .ctrl => ctrlWord s.ie
  | .status => statusWord s.status
  | .cmd => s.cmd
  | .srcAddr => s.regs.srcAddr
  | .srcLen => s.regs.srcLen
  | .dstAddr => s.regs.dstAddr
  | .dstCap => s.regs.dstCap
  | .count => s.regs.count
  | .result => s.result
  | .inUsed => s.inUsed

/-- A write to CTRL: a soft reset, or the new IE (R23, R205). -/
def writeCtrl (v : Word) (s : State) : State :=
  if v.getLsbD 1 then resetBlock s else { s with ie := v.getLsbD 0 }

/-- A write to CMD: acceptance, or the overrun flag while a command is active (R27, R29). -/
def writeCmd (v : Word) (s : State) : State :=
  if s.status.busy then { s with status := overrunStatus s.status } else acceptCommand v s

/-- A write to a register (R22 to R37). Read-only registers ignore it. -/
def writeReg (v : Word) (s : State) : Reg → State
  | .id => s
  | .ctrl => writeCtrl v s
  | .status => acknowledge v s
  | .cmd => writeCmd v s
  | .srcAddr => { s with regs := { s.regs with srcAddr := v } }
  | .srcLen => { s with regs := { s.regs with srcLen := v } }
  | .dstAddr => { s with regs := { s.regs with dstAddr := v } }
  | .dstCap => { s with regs := { s.regs with dstCap := v } }
  | .count => { s with regs := { s.regs with count := v } }
  | .result => s
  | .inUsed => s

/-- The word at an offset of the window; reserved offsets read 0 (R38). -/
def readOffset (s : State) (offset : Nat) : Word :=
  match regAt offset with
  | some r => readReg s r
  | none => 0#32

/-- A write at an offset of the window; reserved offsets ignore it (R38). -/
def writeOffset (offset : Nat) (v : Word) (s : State) : State :=
  match regAt offset with
  | some r => writeReg v s r
  | none => s

/-- A register-port read (R39, R40): no side effect on any register. -/
def hostRegRead (offset size : Nat) (s : State) : StepResult :=
  if registerAccessServed offset size then .next { s with reply := .reg (readOffset s offset) }
  else .refused .registerAccessForm

/-- The write would launch a command with a declared region that is not plain memory (R58, I16):
a CMD write while idle, judged by the operands it would latch (log entry 9). -/
def launchRefused (offset : Nat) (v : Word) (s : State) : Bool :=
  decide (regAt offset = some .cmd) && !s.status.busy && !declaredPlain (acceptCommand v s)

/-- A register-port write (R39); a launch on a device or the register window is refused (R58). -/
def hostRegWrite (offset size : Nat) (v : Word) (s : State) : StepResult :=
  if !registerAccessServed offset size then .refused .registerAccessForm
  else if launchRefused offset v s then .refused .regionNotPlainMemory
  else .next (writeOffset offset v s)

/-- The byte a host reads at an address: a free one in an active write region (R209), else the
memory's. `k` numbers the draw. -/
def hostByte (s : State) (a k : Nat) : Byte :=
  if regionHas (activeWrite s) a then Config.freeByte (s.draws + k) else s.mem.read a

/-- A host data-memory read of `n` bytes (R61(d), R209, log entry 13). -/
def hostMemRead (addr : Word) (n : Nat) (s : State) : StepResult :=
  if wraps ⟨addr.toNat, n⟩ then .fault .hostLeavesAddressSpace
  else if !plainMemory s.platform ⟨addr.toNat, n⟩ then .refused .hostAccessNotPlainMemory
  else if !served s.platform ⟨addr.toNat, n⟩ then .fault .hostBusError
  else
    .next { s with
      reply := .mem ((List.range n).map fun k => hostByte s (addr.toNat + k) k)
      draws := s.draws + n }

/-- A host data-memory write (R61(b), R208, log entry 13). -/
def hostMemWrite (addr : Word) (bs : List Byte) (s : State) : StepResult :=
  if regionsMeet ⟨addr.toNat, bs.length⟩ (activeSource s)
      || regionsMeet ⟨addr.toNat, bs.length⟩ (activeWrite s) then .fault .hostWritesActiveRegion
  else if wraps ⟨addr.toNat, bs.length⟩ then .fault .hostLeavesAddressSpace
  else if !plainMemory s.platform ⟨addr.toNat, bs.length⟩ then .refused .hostAccessNotPlainMemory
  else if !served s.platform ⟨addr.toNat, bs.length⟩ then .fault .hostBusError
  else .next (storeBytes addr.toNat bs s)

/-- One host access. -/
def hostAccess (a : HostAccess) (s : State) : StepResult :=
  match a with
  | .regRead offset size => hostRegRead offset size s
  | .regWrite offset size v => hostRegWrite offset size v s
  | .memRead addr n => hostMemRead addr n s
  | .memWrite addr bs => hostMemWrite addr bs s

end Sys2Proof.Machine
end

