-- ==== Sys2Proof/Machine/Engine.lean ====
section
/-! DEFINITION. The turns of the two agents (R16): the engine's, with the fetch of its command, and
one slot of the inputs. -/

namespace Sys2Proof.Machine

/-- The command the engine runs: the accepted word, decoded (R29, R52, R77). -/
def fetch (s : State) : Except DecodeError Instr := decode s.cmd

/-- The engine's turn: the completion step of the active command (R62, R214), an illegal word
completing with ILLEGAL_COMMAND (R80); nothing while idle (R187). -/
def engineTurn (s : State) : StepResult :=
  if s.status.busy then
    match fetch s with
    | .ok i => exec i s
    | .error _ => .next (raiseError .illegalCommand s)
  else .next s

/-- One slot of the inputs: reset before every other event (R180), else the host's access, else the
engine's turn. -/
def slotTurn (slot : Slot) (s : State) : StepResult :=
  if slot.rst then .next (resetBlock s)
  else
    match slot.host with
    | some a => hostAccess a s
    | none => engineTurn s

/-- A slot in which neither `rst` nor the host acts: the engine's turn. -/
def engineSlot : Slot := ⟨false, none⟩

/-- The next slot is the engine's, whatever inputs follow it. -/
def engineFirst (inputs : List Slot) : List Slot :=
  match inputs with
  | [] => []
  | _ :: _ => engineSlot :: inputs

end Sys2Proof.Machine
end

