-- ==== Sys2Proof/Machine/Step.lean ====
section
/-! DEFINITION. One step of the machine. -/

namespace Sys2Proof.Machine

/-- One step: the next slot of the inputs, or the engine's turn when none is left (log entry 2). -/
def step (s : State) : Host.Outcome State Fault Refusal :=
  match s.inputs with
  | [] => engineTurn s
  | slot :: rest => slotTurn slot { s with inputs := rest }

/-- `s` with the command word of `nbits` bits accepted (R29) and the next step the engine's, so
that it runs this very command. It stands for the host's write to CMD (log entry 3). -/
def State.withFetchWord (s : State) (nbits w : Nat) : State :=
  acceptCommand (BitVec.ofNat 32 (w % 2 ^ nbits)) { s with inputs := engineFirst s.inputs }

end Sys2Proof.Machine
end

