-- ==== Sys2Proof/Safety.lean ====
section
/-! DEFINITION. What counts as a safe run, and the terms claims use: the invariant of the
registers, the premises under which a command runs, and the spec's sequences by index. -/

namespace Sys2Proof.Machine

/-- A step that stops with neither a fault nor a refusal. -/
def stepIsSafe (s : State) : Bool :=
  match step s with
  | .next _ => true
  | .fault _ => false
  | .refused _ => false

/-- `k` steps, none of which stops. -/
def runIsSafe : Nat → State → Bool
  | 0, _ => true
  | k + 1, s =>
    match step s with
    | .next t => runIsSafe k t
    | .fault _ => false
    | .refused _ => false

/-- What holds of the registers and the memory in every reachable state. -/
structure Consistent (s : State) : Prop where
  /-- Data memory is in its canonical form. -/
  memory : s.mem.wf
  /-- ERR holds a code of the table (R172: 9 to 15 are never produced). -/
  code : s.status.err.toNat ≤ 8
  /-- While a command is active DONE is 0 (R26, R40). -/
  busyNotDone : s.status.busy = true → s.status.done = false
  /-- While a command is active ERR is 0 (R28, R40). -/
  busyNoError : s.status.busy = true → s.status.err = 0#4
  /-- After an error RESULT is 0 (R36). -/
  errorResult : s.status.err ≠ 0#4 → s.result = 0#32
  /-- After an error IN_USED is 0 (R37). -/
  errorUsed : s.status.err ≠ 0#4 → s.inUsed = 0#32
  /-- The regions an active command declares are plain memory: no other launch is accepted (R58). -/
  launchPlain : s.status.busy = true → declaredPlain s = true

/-! ## The premises under which a command runs, in the spec's own numbers -/

/-- The element width is legal (R73). -/
abbrev widthLegal (w : BitVec 3) : Prop := w.toNat = 1 ∨ w.toNat = 2 ∨ w.toNat = 4

/-- The source region does not wrap (R54). -/
abbrev sourceFits (op : Operands) : Prop := op.srcAddr.toNat + op.srcLen.toNat ≤ 2 ^ 32

/-- The destination region does not wrap (R54). -/
abbrev destFits (op : Operands) : Prop := op.dstAddr.toNat + op.dstCap.toNat ≤ 2 ^ 32

/-- The source and destination regions overlap (R55). -/
abbrev regionsShare (op : Operands) : Prop :=
  0 < op.srcLen.toNat ∧ 0 < op.dstCap.toNat
    ∧ op.srcAddr.toNat < op.dstAddr.toNat + op.dstCap.toNat
    ∧ op.dstAddr.toNat < op.srcAddr.toNat + op.srcLen.toNat

/-- A region is plain memory (R58) and every access in it is served (R67). -/
abbrev onServedMemory (p : Platform) (r : Region) : Prop :=
  plainMemory p r = true ∧ served p r = true

/-- The element count of ENC, DZF and DZI (R31, R78). -/
abbrev sourceCount (w : BitVec 3) (op : Operands) : Nat := op.srcLen.toNat / w.toNat

/-- ENC, DZF and DZI pass INPUT_SIZE (R171). -/
abbrev sizeAccepted (w : BitVec 3) (op : Operands) : Prop :=
  widthLegal w ∧ op.srcLen.toNat % w.toNat = 0

/-- The checks of an encode before its first memory access pass (R108, R174). -/
abbrev encodeAccepted (w : BitVec 3) (op : Operands) : Prop :=
  sizeAccepted w op ∧ sourceFits op ∧ destFits op ∧ ¬ regionsShare op

/-- The checks of a decode before its first memory access pass (R114, R174). -/
abbrev decodeAccepted (w : BitVec 3) (op : Operands) : Prop :=
  widthLegal w ∧ sourceFits op ∧ destFits op ∧ ¬ regionsShare op
    ∧ w.toNat * op.count.toNat ≤ op.dstCap.toNat ∧ keybytes op.count.toNat ≤ op.srcLen.toNat

/-- The checks of an in-place transform pass (R145, R146, R174). -/
abbrev transformAccepted (w : BitVec 3) (op : Operands) : Prop :=
  sizeAccepted w op ∧ sourceFits op

/-- An encode may run: its checks pass and its regions are served plain memory. -/
abbrev encodeReady (w : BitVec 3) (s : State) : Prop :=
  encodeAccepted w s.op ∧ onServedMemory s.platform (sourceOf s.op)
    ∧ onServedMemory s.platform (destOf s.op) ∧ s.mem.wf

/-- A decode may run. -/
abbrev decodeReady (w : BitVec 3) (s : State) : Prop :=
  decodeAccepted w s.op ∧ onServedMemory s.platform (sourceOf s.op)
    ∧ onServedMemory s.platform (destOf s.op) ∧ s.mem.wf

/-- An in-place transform may run. -/
abbrev transformReady (w : BitVec 3) (s : State) : Prop :=
  transformAccepted w s.op ∧ onServedMemory s.platform (sourceOf s.op) ∧ s.mem.wf

/-- A slot in which the host makes an access. -/
def hostSlot (a : HostAccess) : Slot := ⟨false, some a⟩

/-- The host's access is a CTRL write that performs a soft reset (R205). -/
def isSoftReset : HostAccess → Bool
  | .regWrite offset size v => decide (offset = 0x004 ∧ size = 4) && v.getLsbD 1
  | .regRead _ _ => false
  | .memRead _ _ => false
  | .memWrite _ _ => false

/-- The slot resets the block: `rst`, or a soft reset (R200). -/
def resetsBlock (slot : Slot) : Bool :=
  slot.rst || (match slot.host with | some a => isSoftReset a | none => false)

/-- The state after a completion: RESULT, IN_USED and STATUS written, nothing else (R175, R176). -/
def completed (err : BitVec 4) (result used : Nat) (s : State) : State :=
  { s with
    status := ⟨false, true, s.status.ovr, err⟩
    result := BitVec.ofNat 32 result
    inUsed := BitVec.ofNat 32 used }

/-! ## The spec's sequences by index, over what memory holds -/

/-- Element i of a buffer (R50, R51, R56): the sum of byte k times 256^k over its W bytes. -/
def bufferElement (m : Memory) (a W i : Nat) : BitVec (8 * W) :=
  BitVec.ofNat (8 * W) (((List.range W).map fun k => (m.read (a + i * W + k)).toNat * 256 ^ k).sum)

/-- The element before element i, 0 before the first (R142). -/
def previousElement (m : Memory) (a W : Nat) : Nat → BitVec (8 * W)
  | 0 => 0
  | i + 1 => bufferElement m a W i

/-- Element i after the forward pre-transform (R140, R142). -/
def forwardElement (m : Memory) (a W i : Nat) : BitVec (8 * W) :=
  zigzag (bufferElement m a W i - previousElement m a W i)

/-- Element i after the inverse pre-transform of a sequence (R141, R143). -/
def prefixElement {n : Nat} (u : Nat → BitVec n) : Nat → BitVec n
  | 0 => unzigzag (u 0)
  | i + 1 => prefixElement u i + unzigzag (u (i + 1))

/-- Value i an encode packs (R106, R107). -/
def encodeValue (m : Memory) (a W : Nat) (dz : Bool) (i : Nat) : Word :=
  (if dz then forwardElement m a W i else bufferElement m a W i).setWidth 32

/-- The offset of value i's bytes in a stream of N values with the given byte lengths (R102). -/
def streamOffset (len : Nat → Nat) (N : Nat) : Nat → Nat
  | 0 => keybytes N
  | i + 1 => streamOffset len N i + len i

/-- The total length of the stream an encode writes (R102). -/
def encodeLength (m : Memory) (a W : Nat) (dz : Bool) (N : Nat) : Nat :=
  streamOffset (fun j => keylen (encodeValue m a W dz j)) N N

/-- The code of value i of a stream in memory (R112). -/
def streamCode (m : Memory) (a i : Nat) : BitVec 2 :=
  BitVec.ofNat 2 ((m.read (a + i / 4)).toNat / 4 ^ (i % 4))

/-- The offset of value i in a stream in memory (R114). -/
def decodeOffset (m : Memory) (a N i : Nat) : Nat :=
  streamOffset (fun j => (streamCode m a j).toNat + 1) N i

/-- Value i of a stream in memory (R114). -/
def decodeValue (m : Memory) (a N i : Nat) : Word :=
  BitVec.ofNat 32 (((List.range ((streamCode m a i).toNat + 1)).map fun k =>
    (m.read (a + decodeOffset m a N i + k)).toNat * 256 ^ k).sum)

/-- Element i a decode writes (R114, R116). -/
def decodeElement (m : Memory) (a N W : Nat) (dz : Bool) (i : Nat) : BitVec (8 * W) :=
  if dz then prefixElement (fun j => (decodeValue m a N j).setWidth (8 * W)) i
  else (decodeValue m a N i).setWidth (8 * W)

end Sys2Proof.Machine
end

