-- ==== Sys2Proof/Certificates/Slice0/Obligations.lean ====
section
/-! DEFINITION. The statements for the provers. Each docstring names the rules it formalises. The
fields `inputs`, `reply` and `draws` of State are the model's own (log entries 2, 4 and 5): a
statement about them says how the model presents the spec's events. -/

open Sys2Proof Sys2Proof.Machine

/-! ## Encoding -/

/-- A command decodes from its own word (R70, R77): no field of any form is dropped. -/
def Obligations.DecodeOfEncodeIsIdentity : Prop :=
  ∀ i : Instr, wellFormed i = true → decode (encode i) = .ok i

/-- Each legal word has one meaning and is that command's own word (R70, R77). -/
def Obligations.EncodeOfDecodeIsIdentity : Prop :=
  ∀ (w : Word) (i : Instr), decode w = .ok i → encode i = w ∧ wellFormed i = true

/-- The decoding of every word, by the values of its five fields (R70, R76, R77, R80). -/
def Obligations.DecodeFollowsFieldTable : Prop :=
  ∀ (op ver : BitVec 4) (w : BitVec 3) (dz : Bool) (rsv : BitVec 20) (word : Word),
    word.toNat = op.toNat + 16 * ver.toNat + 256 * w.toNat + 2048 * dz.toNat + 4096 * rsv.toNat →
    (rsv ≠ 0#20 → ∃ e, decode word = .error e) ∧
    (rsv = 0#20 →
      (op.toNat = 0 → ver = 0#4 → w = 0#3 → dz = false → decode word = .ok .nop) ∧
      (op.toNat = 0 → ¬ (ver = 0#4 ∧ w = 0#3 ∧ dz = false) → ∃ e, decode word = .error e) ∧
      (op.toNat = 1 → ver.toNat = 0 → decode word = .ok (.encV0 w dz)) ∧
      (op.toNat = 1 → ver.toNat = 1 → decode word = .ok (.encV1 w dz)) ∧
      (op.toNat = 1 → 2 ≤ ver.toNat → decode word = .ok (.encUnknown ver w dz)) ∧
      (op.toNat = 2 → ver.toNat = 0 → decode word = .ok (.decV0 w dz)) ∧
      (op.toNat = 2 → ver.toNat = 1 → decode word = .ok (.decV1 w dz)) ∧
      (op.toNat = 2 → 2 ≤ ver.toNat → decode word = .ok (.decUnknown ver w dz)) ∧
      (op.toNat = 3 → ver = 0#4 → dz = false → decode word = .ok (.bound w)) ∧
      (op.toNat = 4 → ver = 0#4 → dz = false → decode word = .ok (.dzf w)) ∧
      (op.toNat = 5 → ver = 0#4 → dz = false → decode word = .ok (.dzi w)) ∧
      (3 ≤ op.toNat → op.toNat ≤ 5 → ¬ (ver = 0#4 ∧ dz = false) → ∃ e, decode word = .error e) ∧
      (6 ≤ op.toNat → ∃ e, decode word = .error e))

/-- Words written out field by field decode to their commands: those of V0 and V1 from R83, those
that name no version from the fields of R72, R77 and R110. -/
def Obligations.SpecWordsDecode : Prop :=
  decode 0x00000000#32 = .ok .nop ∧ decode 0x00000C01#32 = .ok (.encV0 4#3 true) ∧
  decode 0x00000211#32 = .ok (.encV1 2#3 false) ∧ decode 0x00000402#32 = .ok (.decV0 4#3 false) ∧
  decode 0x00000212#32 = .ok (.decV1 2#3 false) ∧ decode 0x00000203#32 = .ok (.bound 2#3) ∧
  decode 0x00000104#32 = .ok (.dzf 1#3) ∧ decode 0x00000205#32 = .ok (.dzi 2#3) ∧
  decode 0x000004F1#32 = .ok (.encUnknown 15#4 4#3 false) ∧
  decode 0x00000422#32 = .ok (.decUnknown 2#4 4#3 false)

/-! ## The engine's step -/

/-- The engine's turn at an active command runs the decoded command (R29, R62, R77). A slot of the
inputs in which nobody acts is used up; nothing else is added to `exec`. -/
def Obligations.StepRunsDecodedCommand : Prop :=
  ∀ (s : State) (i : Instr), s.status.busy = true → decode s.cmd = .ok i → wellFormed i = true →
    (s.inputs = [] → step s = exec i s) ∧
    (∀ rest, s.inputs = engineSlot :: rest → step s = exec i { s with inputs := rest })

/-- A word placed by withFetchWord runs in the very next step, on the operands the registers hold
(R29, R35). The interface is the model's own: log entry 3. -/
def Obligations.PlacedWordRunsNext : Prop :=
  ∀ (s : State) (w : Nat) (i : Instr), decodeTableWord 32 w = some i →
    ∃ u : State, step (s.withFetchWord 32 w) = exec i u ∧ u.op = s.regs ∧ u.mem = s.mem ∧
      u.cmd = BitVec.ofNat 32 w ∧ u.status = ⟨true, false, s.status.ovr, 0#4⟩ ∧
      u.inputs = s.inputs ∧ u.platform = s.platform

/-- An illegal word completes with ILLEGAL_COMMAND, RESULT 0 and IN_USED 0, and changes nothing
else, data memory among it (R80, R172, R175). -/
def Obligations.IllegalWordCompletesWithError : Prop :=
  ∀ (s : State) (e : DecodeError), s.status.busy = true → decode s.cmd = .error e →
    (s.inputs = [] → step s = .next (completed 1#4 0 0 s)) ∧
    (∀ rest, s.inputs = engineSlot :: rest →
      step s = .next (completed 1#4 0 0 { s with inputs := rest }))

/-- While BUSY = 0 the engine does nothing (R187). -/
def Obligations.IdleEngineChangesNothing : Prop :=
  ∀ s : State, s.status.busy = false →
    (s.inputs = [] → step s = .next s) ∧
    (∀ rest, s.inputs = engineSlot :: rest → step s = .next { s with inputs := rest })

/-- Every active command, whatever its word and operands, completes when its regions are served
plain memory: BUSY falls, DONE rises and ERR holds a code of the table. It formalises what R215
says "This rests on three facts" of, an inference the spec marks as its own. -/
def Obligations.ActiveCommandAlwaysCompletes : Prop :=
  ∀ s : State, s.status.busy = true → s.inputs = [] →
    onServedMemory s.platform (activeSource s) → onServedMemory s.platform (activeWrite s) →
    ∃ t, step s = .next t ∧ t.status.busy = false ∧ t.status.done = true ∧ t.status.err.toNat ≤ 8

/-! ## What each command does -/

/-- svb.nop is the word 0 exactly; it completes with RESULT 0 and IN_USED 0, changes nothing else
(data memory among it), and raises `irq` if CTRL.IE = 1 (R160). -/
def Obligations.NopCompletes : Prop :=
  decode 0#32 = .ok .nop ∧
  (∀ w : Word, w ≠ 0#32 → w.toNat % 16 = 0 → ∃ e, decode w = .error e) ∧
  ∀ s : State, exec .nop s = .next (completed 0#4 0 0 s) ∧ (completed 0#4 0 0 s).irq = s.ie

/-- svb.enc.v0 and svb.enc.v1 write the key stream, then the data stream, and nothing else
(R102, R103; R107, R108, R109, R68): in V0 key byte j packs the codes of values 4j to 4j+3, the low
code in the low bits (the V1 keys are EncodeV1KeysAreBitString's); value i stands at its offset in its `keylen` low bytes; every byte outside the
stream keeps its value; RESULT is the length and IN_USED the bytes of the elements. -/
def Obligations.EncodeWritesKeyAndDataStream : Prop :=
  ∀ (w : BitVec 3) (dz : Bool) (s : State) (i : Instr), i = .encV0 w dz ∨ i = .encV1 w dz →
    encodeReady w s →
    encodeLength s.mem s.op.srcAddr.toNat w.toNat dz (sourceCount w s.op) ≤ s.op.dstCap.toNat →
    ∃ t, exec i s = .next t ∧
      t = completed 0#4
        (encodeLength s.mem s.op.srcAddr.toNat w.toNat dz (sourceCount w s.op))
        (sourceCount w s.op * w.toNat) { s with mem := t.mem } ∧
      (i = .encV0 w dz → ∀ j < keybytes (sourceCount w s.op),
        (t.mem.read (s.op.dstAddr.toNat + j)).toNat =
          ((List.range 4).map fun k =>
            if 4 * j + k < sourceCount w s.op then
              (keycode (encodeValue s.mem s.op.srcAddr.toNat w.toNat dz (4 * j + k))).toNat * 4 ^ k
            else 0).sum) ∧
      (∀ j < sourceCount w s.op,
        ∀ k < keylen (encodeValue s.mem s.op.srcAddr.toNat w.toNat dz j),
          t.mem.read (s.op.dstAddr.toNat +
            streamOffset (fun x => keylen (encodeValue s.mem s.op.srcAddr.toNat w.toNat dz x))
              (sourceCount w s.op) j + k) =
          BitVec.ofNat 8
            ((encodeValue s.mem s.op.srcAddr.toNat w.toNat dz j).toNat / 256 ^ k)) ∧
      (∀ a, a < s.op.dstAddr.toNat ∨
          s.op.dstAddr.toNat +
            encodeLength s.mem s.op.srcAddr.toNat w.toNat dz (sourceCount w s.op) ≤ a →
        t.mem.read a = s.mem.read a)

/-- The V1 key stream as a bit string: stream bit b is bit b mod 8 of key byte b/8, code i stands at
bits [2i+1:2i], and the bits from 2N on are 0 (R104). -/
def Obligations.EncodeV1KeysAreBitString : Prop :=
  ∀ (w : BitVec 3) (dz : Bool) (s : State), encodeReady w s →
    encodeLength s.mem s.op.srcAddr.toNat w.toNat dz (sourceCount w s.op) ≤ s.op.dstCap.toNat →
    ∃ t, exec (.encV1 w dz) s = .next t ∧
      ∀ b < 8 * keybytes (sourceCount w s.op),
        (t.mem.read (s.op.dstAddr.toNat + b / 8)).getLsbD (b % 8) =
          if b / 2 < sourceCount w s.op then
            (keycode (encodeValue s.mem s.op.srcAddr.toNat w.toNat dz (b / 2))).getLsbD (b % 2)
          else false

/-- The errors of the encode commands, in the order of the checks (R108, R109, R174, R175): the
state is that of an error completion, which changes no memory. -/
def Obligations.EncodeErrorsInOrder : Prop :=
  ∀ (w : BitVec 3) (dz : Bool) (s : State) (i : Instr), i = .encV0 w dz ∨ i = .encV1 w dz →
    (¬ sizeAccepted w s.op → exec i s = .next (completed 2#4 0 0 s)) ∧
    (sizeAccepted w s.op → ¬ (sourceFits s.op ∧ destFits s.op) →
      exec i s = .next (completed 4#4 0 0 s)) ∧
    (sizeAccepted w s.op → sourceFits s.op → destFits s.op → regionsShare s.op →
      exec i s = .next (completed 5#4 0 0 s)) ∧
    (encodeAccepted w s.op → onServedMemory s.platform (sourceOf s.op) →
      plainMemory s.platform (destOf s.op) = true →
      s.op.dstCap.toNat <
        encodeLength s.mem s.op.srcAddr.toNat w.toNat dz (sourceCount w s.op) →
      exec i s = .next (completed 6#4 0 0 s))

/-- svb.dec.v0 and svb.dec.v1 write the COUNT decoded elements and nothing else (R112, R114, R115,
R116, R68, R120): element i in W little-endian bytes; RESULT is W times N and IN_USED the length
of the stream, whatever bytes follow it. -/
def Obligations.DecodeWritesElements : Prop :=
  ∀ (w : BitVec 3) (dz : Bool) (s : State) (i : Instr), i = .decV0 w dz ∨ i = .decV1 w dz →
    decodeReady w s →
    decodeOffset s.mem s.op.srcAddr.toNat s.op.count.toNat s.op.count.toNat ≤ s.op.srcLen.toNat →
    ∃ t, exec i s = .next t ∧
      t = completed 0#4 (w.toNat * s.op.count.toNat)
        (decodeOffset s.mem s.op.srcAddr.toNat s.op.count.toNat s.op.count.toNat)
        { s with mem := t.mem } ∧
      (∀ j < s.op.count.toNat, ∀ k < w.toNat,
        t.mem.read (s.op.dstAddr.toNat + j * w.toNat + k) =
          BitVec.ofNat 8
            ((decodeElement s.mem s.op.srcAddr.toNat s.op.count.toNat w.toNat dz j).toNat
              / 256 ^ k)) ∧
      (∀ a, a < s.op.dstAddr.toNat ∨ s.op.dstAddr.toNat + w.toNat * s.op.count.toNat ≤ a →
        t.mem.read a = s.mem.read a)

/-- The errors of the decode commands, in the order of the checks (R113, R114, R115, R174, R175). -/
def Obligations.DecodeErrorsInOrder : Prop :=
  ∀ (w : BitVec 3) (dz : Bool) (s : State) (i : Instr), i = .decV0 w dz ∨ i = .decV1 w dz →
    (¬ widthLegal w → exec i s = .next (completed 2#4 0 0 s)) ∧
    (widthLegal w → ¬ (sourceFits s.op ∧ destFits s.op) →
      exec i s = .next (completed 4#4 0 0 s)) ∧
    (widthLegal w → sourceFits s.op → destFits s.op → regionsShare s.op →
      exec i s = .next (completed 5#4 0 0 s)) ∧
    (widthLegal w → sourceFits s.op → destFits s.op → ¬ regionsShare s.op →
      s.op.dstCap.toNat < w.toNat * s.op.count.toNat →
      exec i s = .next (completed 6#4 0 0 s)) ∧
    (widthLegal w → sourceFits s.op → destFits s.op → ¬ regionsShare s.op →
      w.toNat * s.op.count.toNat ≤ s.op.dstCap.toNat →
      s.op.srcLen.toNat < keybytes s.op.count.toNat →
      exec i s = .next (completed 7#4 0 0 s)) ∧
    (decodeAccepted w s.op → onServedMemory s.platform (sourceOf s.op) →
      plainMemory s.platform (destOf s.op) = true →
      s.op.srcLen.toNat <
        decodeOffset s.mem s.op.srcAddr.toNat s.op.count.toNat s.op.count.toNat →
      exec i s = .next (completed 7#4 0 0 s))

/-- svb.dzf replaces element i by the zig-zag of its difference from the element before it, and
writes nothing else (R142, R145, R68). -/
def Obligations.ForwardTransformInPlace : Prop :=
  ∀ (w : BitVec 3) (s : State), transformReady w s →
    ∃ t, exec (.dzf w) s = .next t ∧
      t = completed 0#4 s.op.srcLen.toNat s.op.srcLen.toNat { s with mem := t.mem } ∧
      (∀ j < sourceCount w s.op, ∀ k < w.toNat,
        t.mem.read (s.op.srcAddr.toNat + j * w.toNat + k) =
          BitVec.ofNat 8
            ((forwardElement s.mem s.op.srcAddr.toNat w.toNat j).toNat / 256 ^ k)) ∧
      (∀ a, a < s.op.srcAddr.toNat ∨ s.op.srcAddr.toNat + s.op.srcLen.toNat ≤ a →
        t.mem.read a = s.mem.read a)

/-- svb.dzi replaces element i by the prefix sum of the inverse zig-zags up to it, and writes
nothing else (R143, R146, R68). -/
def Obligations.InverseTransformInPlace : Prop :=
  ∀ (w : BitVec 3) (s : State), transformReady w s →
    ∃ t, exec (.dzi w) s = .next t ∧
      t = completed 0#4 s.op.srcLen.toNat s.op.srcLen.toNat { s with mem := t.mem } ∧
      (∀ j < sourceCount w s.op, ∀ k < w.toNat,
        t.mem.read (s.op.srcAddr.toNat + j * w.toNat + k) =
          BitVec.ofNat 8
            ((prefixElement (bufferElement s.mem s.op.srcAddr.toNat w.toNat) j).toNat
              / 256 ^ k)) ∧
      (∀ a, a < s.op.srcAddr.toNat ∨ s.op.srcAddr.toNat + s.op.srcLen.toNat ≤ a →
        t.mem.read a = s.mem.read a)

/-- The errors of svb.dzf and svb.dzi, in the order of the checks (R145, R146, R174, R175). -/
def Obligations.TransformErrorsInOrder : Prop :=
  ∀ (w : BitVec 3) (s : State) (i : Instr), i = .dzf w ∨ i = .dzi w →
    (¬ sizeAccepted w s.op → exec i s = .next (completed 2#4 0 0 s)) ∧
    (sizeAccepted w s.op → ¬ sourceFits s.op → exec i s = .next (completed 4#4 0 0 s))

/-- svb.bound gives the bound of the ceiling of SRC_LEN / W values, RESULT_RANGE when it does not
fit in 32 bits, INPUT_SIZE when the width is not legal (R117). -/
def Obligations.BoundResult : Prop :=
  ∀ (w : BitVec 3) (s : State) (N b : Nat),
    (¬ widthLegal w → exec (.bound w) s = .next (completed 2#4 0 0 s)) ∧
    (widthLegal w → s.op.srcLen.toNat ≤ N * w.toNat → N * w.toNat < s.op.srcLen.toNat + w.toNat →
      N ≤ 4 * (b - 4 * N) → 4 * (b - 4 * N) < N + 4 → 4 * N ≤ b →
      (b ≤ 0xFFFFFFFF → exec (.bound w) s = .next (completed 0#4 b 0 s)) ∧
      (0xFFFFFFFF < b → exec (.bound w) s = .next (completed 8#4 0 0 s)))

/-- The result of svb.bound is non-decreasing in SRC_LEN (R117, "Monotone bound"). -/
def Obligations.BoundIsMonotone : Prop :=
  ∀ (w : BitVec 3) (s s' t t' : State), s.op.srcLen.toNat ≤ s'.op.srcLen.toNat →
    exec (.bound w) s = .next t → exec (.bound w) s' = .next t' →
    t.status.err = 0#4 → t'.status.err = 0#4 → t.result.toNat ≤ t'.result.toNat

/-- No successful encode exceeds the bound; it meets it exactly when every value needs four bytes;
and one byte less of capacity is then too small. It formalises R111's "because `keylen(v) ≤ 4`", an
inference the spec marks as its own. -/
def Obligations.EncodeStaysWithinBound : Prop :=
  ∀ (w : BitVec 3) (dz : Bool) (s : State) (i : Instr), i = .encV0 w dz ∨ i = .encV1 w dz →
    (∀ t, exec i s = .next t → t.status.err = 0#4 →
      t.result.toNat ≤ keybytes (sourceCount w s.op) + 4 * sourceCount w s.op ∧
      (t.result.toNat = keybytes (sourceCount w s.op) + 4 * sourceCount w s.op ↔
        ∀ j < sourceCount w s.op,
          2 ^ 24 ≤ (encodeValue s.mem s.op.srcAddr.toNat w.toNat dz j).toNat)) ∧
    (encodeReady w s →
      (∀ j < sourceCount w s.op,
        2 ^ 24 ≤ (encodeValue s.mem s.op.srcAddr.toNat w.toNat dz j).toNat) →
      s.op.dstCap.toNat + 1 = keybytes (sourceCount w s.op) + 4 * sourceCount w s.op →
      exec i s = .next (completed 6#4 0 0 s))

/-- A word with OP 1 or 2 and VER 2 to 15 decodes to its ENC or DEC form, which fails with
INPUT_SIZE or else UNKNOWN_VERSION whatever its regions are, with RESULT 0, IN_USED 0 and data
memory as it was (R110). -/
def Obligations.UnknownVersionCompletesWithError : Prop :=
  ∀ (ver : BitVec 4) (w : BitVec 3) (dz : Bool) (s : State), 2 ≤ ver.toNat →
    decode (BitVec.ofNat 32 (1 + 16 * ver.toNat + 256 * w.toNat + 2048 * dz.toNat))
      = .ok (.encUnknown ver w dz) ∧
    decode (BitVec.ofNat 32 (2 + 16 * ver.toNat + 256 * w.toNat + 2048 * dz.toNat))
      = .ok (.decUnknown ver w dz) ∧
    exec (.encUnknown ver w dz) s =
      .next (completed (if sizeAccepted w s.op then 3#4 else 2#4) 0 0 s) ∧
    exec (.decUnknown ver w dz) s =
      .next (completed (if widthLegal w then 3#4 else 2#4) 0 0 s)

/-! ## Stops -/

/-- A command that is about to access memory is refused when a region it declares maps a device or
the register window (R58). Its launch was refused already (LaunchOnDeviceIsRefused), so no state that
is `Consistent` comes here: this second refusal is the model's choice, log entry 21. -/
def Obligations.CommandOnDeviceIsRefused : Prop :=
  ∀ (w : BitVec 3) (dz : Bool) (s : State),
    (encodeAccepted w s.op →
      plainMemory s.platform (sourceOf s.op) = false ∨
        plainMemory s.platform (destOf s.op) = false →
      exec (.encV0 w dz) s = .refused .regionNotPlainMemory ∧
      exec (.encV1 w dz) s = .refused .regionNotPlainMemory) ∧
    (decodeAccepted w s.op →
      plainMemory s.platform (sourceOf s.op) = false ∨
        plainMemory s.platform (destOf s.op) = false →
      exec (.decV0 w dz) s = .refused .regionNotPlainMemory ∧
      exec (.decV1 w dz) s = .refused .regionNotPlainMemory) ∧
    (transformAccepted w s.op → plainMemory s.platform (sourceOf s.op) = false →
      exec (.dzf w) s = .refused .regionNotPlainMemory ∧
      exec (.dzi w) s = .refused .regionNotPlainMemory)

/-- A command that accesses a byte the platform does not serve faults (R67, `busError`; log
entry 8): the source and the written stream of an encode, the keys, the data and the elements of a
decode, the buffer of a transform. -/
def Obligations.UnservedAccessFaults : Prop :=
  ∀ (w : BitVec 3) (dz : Bool) (s : State),
    (encodeAccepted w s.op → plainMemory s.platform (sourceOf s.op) = true →
      plainMemory s.platform (destOf s.op) = true →
      served s.platform (sourceOf s.op) = false ∨
        (encodeLength s.mem s.op.srcAddr.toNat w.toNat dz (sourceCount w s.op) ≤ s.op.dstCap.toNat ∧
          served s.platform ⟨s.op.dstAddr.toNat,
            encodeLength s.mem s.op.srcAddr.toNat w.toNat dz (sourceCount w s.op)⟩ = false) →
      exec (.encV0 w dz) s = .fault .engineBusError ∧
      exec (.encV1 w dz) s = .fault .engineBusError) ∧
    (decodeAccepted w s.op → plainMemory s.platform (sourceOf s.op) = true →
      plainMemory s.platform (destOf s.op) = true →
      served s.platform ⟨s.op.srcAddr.toNat, keybytes s.op.count.toNat⟩ = false ∨
        (decodeOffset s.mem s.op.srcAddr.toNat s.op.count.toNat s.op.count.toNat
            ≤ s.op.srcLen.toNat ∧
          (served s.platform ⟨s.op.srcAddr.toNat,
              decodeOffset s.mem s.op.srcAddr.toNat s.op.count.toNat s.op.count.toNat⟩ = false ∨
            served s.platform ⟨s.op.dstAddr.toNat, w.toNat * s.op.count.toNat⟩ = false)) →
      exec (.decV0 w dz) s = .fault .engineBusError ∧
      exec (.decV1 w dz) s = .fault .engineBusError) ∧
    (transformAccepted w s.op → plainMemory s.platform (sourceOf s.op) = true →
      served s.platform (sourceOf s.op) = false →
      exec (.dzf w) s = .fault .engineBusError ∧ exec (.dzi w) s = .fault .engineBusError)

/-- What served and plain mean of each byte of a region (R58, R59, R67): it lies in no unserved
range; it lies in no device and not in the 4 KiB register window. That an address outside the lists
`unserved` and `devices` is served, or plain, and that the window lies below 2^32, are the model's
choices: log entries 6 and 22. -/
def Obligations.ServedAndPlainByByte : Prop :=
  ∀ (p : Platform) (r : Region),
    (served p r = true ↔ ∀ a, r.base ≤ a → a < r.base + r.size →
      ∀ u ∈ p.unserved, ¬ (u.base ≤ a ∧ a < u.base + u.size)) ∧
    (plainMemory p r = true ↔ ∀ a, r.base ≤ a → a < r.base + r.size →
      ¬ (p.regPage.toNat * 4096 ≤ a ∧ a < p.regPage.toNat * 4096 + 4096) ∧
      ∀ d ∈ p.devices, ¬ (d.base ≤ a ∧ a < d.base + d.size))

/-! ## Relations between commands -/

/-- V1 and V0 agree: the two encodes give the same state and so do the two decodes, in every state.
It formalises R105's "V0 and V1 agree byte for byte", an inference the spec marks as its own. -/
def Obligations.VersionsAgree : Prop :=
  ∀ (w : BitVec 3) (dz : Bool) (s : State),
    exec (.encV1 w dz) s = exec (.encV0 w dz) s ∧ exec (.decV1 w dz) s = exec (.decV0 w dz) s

/-- A decode of an encode's output restores the elements byte for byte. It formalises R119's round
trip, an inference the spec marks as its own. `v1` is the version of both. -/
def Obligations.EncodeThenDecodeRestores : Prop :=
  ∀ (v1 : Bool) (w : BitVec 3) (dz : Bool) (s t u : State), encodeReady w s →
    exec (if v1 then .encV1 w dz else .encV0 w dz) s = .next t → t.status.err = 0#4 →
    decodeReady w u → u.op.srcAddr = s.op.dstAddr → t.result.toNat ≤ u.op.srcLen.toNat →
    u.op.count.toNat = sourceCount w s.op →
    (∀ a, s.op.dstAddr.toNat ≤ a → a < s.op.dstAddr.toNat + t.result.toNat →
      u.mem.read a = t.mem.read a) →
    ∃ x, exec (if v1 then .decV1 w dz else .decV0 w dz) u = .next x ∧ x.status.err = 0#4 ∧
      x.result.toNat = sourceCount w s.op * w.toNat ∧ x.inUsed = t.result ∧
      ∀ k < sourceCount w s.op * w.toNat,
        x.mem.read (u.op.dstAddr.toNat + k) = s.mem.read (s.op.srcAddr.toNat + k)

/-- svb.dzi undoes svb.dzf and svb.dzf undoes svb.dzi, on the same region at the same width: data
memory is the very same. It formalises R144 at the commands (R145, R146), an inference the spec
marks as its own. -/
def Obligations.TransformsUndoEachOther : Prop :=
  ∀ (w : BitVec 3) (s : State), transformReady w s →
    (∃ t x, exec (.dzf w) s = .next t ∧ exec (.dzi w) t = .next x ∧ x.mem = s.mem) ∧
    (∃ t x, exec (.dzi w) s = .next t ∧ exec (.dzf w) t = .next x ∧ x.mem = s.mem)

/-- An encode with the fused transform writes what svb.dzf followed by an encode without it writes,
with the same RESULT and ERR. It formalises R147's "Fusing the two per element gives the same
bytes as two full passes", an inference the spec marks as its own. -/
def Obligations.FusedEncodeEqualsSeparate : Prop :=
  ∀ (v1 : Bool) (w : BitVec 3) (s : State), encodeReady w s →
    ∃ t x y, exec (.dzf w) s = .next t ∧
      exec (if v1 then .encV1 w true else .encV0 w true) s = .next x ∧
      exec (if v1 then .encV1 w false else .encV0 w false) t = .next y ∧
      x.status.err = y.status.err ∧ x.result = y.result ∧ x.inUsed = y.inUsed ∧
      ∀ a, s.op.dstAddr.toNat ≤ a → a < s.op.dstAddr.toNat + x.result.toNat →
        x.mem.read a = y.mem.read a

/-- Zig-zag, delta and the whole transform are bijections at every width. It formalises R144, an
inference the spec marks as its own, from R140 to R143. -/
def Obligations.PreTransformIsBijective : Prop :=
  ∀ n : Nat,
    (∀ s : BitVec n, unzigzag (zigzag s) = s) ∧ (∀ u : BitVec n, zigzag (unzigzag u) = u) ∧
    (∀ (p : BitVec n) (xs : List (BitVec n)), inverseDelta p (forwardDelta p xs) = xs) ∧
    (∀ (p : BitVec n) (ds : List (BitVec n)), forwardDelta p (inverseDelta p ds) = ds) ∧
    (∀ xs : List (BitVec n), inverseTransform (forwardTransform xs) = xs) ∧
    (∀ us : List (BitVec n), forwardTransform (inverseTransform us) = us)

/-- Zig-zag as a map of signed numbers: 2s for s at least 0, -2s-1 below. It formalises R140's
"Equivalently", an inference the spec marks as its own. -/
def Obligations.ZigzagOfSignedValue : Prop :=
  ∀ (n : Nat) (s : BitVec n),
    ((zigzag s).toNat : Int) = if 0 ≤ s.toInt then 2 * s.toInt else -2 * s.toInt - 1

/-- The key code is one less than the number of bytes the value needs, at least one (R100): the
formula and the table. -/
def Obligations.KeycodeIsByteLength : Prop :=
  ∀ v : Word,
    (keycode v).toNat = max 0 (Nat.clog 256 (v.toNat + 1) - 1) ∧
    keylen v = (keycode v).toNat + 1 ∧
    (v.toNat ≤ 0xFF → keycode v = 0#2) ∧
    (0x100 ≤ v.toNat → v.toNat ≤ 0xFFFF → keycode v = 1#2) ∧
    (0x10000 ≤ v.toNat → v.toNat ≤ 0xFFFFFF → keycode v = 2#2) ∧
    (0x1000000 ≤ v.toNat → keycode v = 3#2)

/-! ## The register port, the interrupt and reset -/

/-- What every offset of the window reads, at any time, and that reading changes no register
(R20, R22 to R38, R40). -/
def Obligations.RegisterReadValues : Prop :=
  ∀ (s : State) (rest : List Slot) (offset : Nat) (v : Word),
    s.inputs = hostSlot (.regRead offset 4) :: rest →
    ((offset, v) ∈
        [(0x000, 0x53564231#32), (0x004, BitVec.ofNat 32 s.ie.toNat),
          (0x008, BitVec.ofNat 32 (s.status.busy.toNat + 2 * s.status.done.toNat
            + 4 * s.status.ovr.toNat + 256 * s.status.err.toNat)),
          (0x00C, s.cmd), (0x010, s.regs.srcAddr), (0x014, s.regs.srcLen),
          (0x018, s.regs.dstAddr), (0x01C, s.regs.dstCap), (0x020, s.regs.count),
          (0x024, s.result), (0x028, s.inUsed)] ∨
      (offset % 4 = 0 ∧ 0x02C ≤ offset ∧ offset ≤ 0xFFC ∧ v = 0#32)) →
    step s = .next { s with inputs := rest, reply := .reg v }

/-- A register access is served when it is a 32-bit one at a multiple of 4 inside the window; any
other is refused. A read changes no register (R39). What a CMD write does beyond its form is
CommandWriteAcceptsOrOverruns's. -/
def Obligations.RegisterAccessFormIsChecked : Prop :=
  ∀ (s : State) (rest : List Slot) (offset size : Nat) (v : Word),
    (s.inputs = hostSlot (.regRead offset size) :: rest →
      (size = 4 ∧ offset % 4 = 0 ∧ offset < 0x1000 →
        ∃ r, step s = .next { s with inputs := rest, reply := .reg r }) ∧
      (¬ (size = 4 ∧ offset % 4 = 0 ∧ offset < 0x1000) →
        step s = .refused .registerAccessForm)) ∧
    (s.inputs = hostSlot (.regWrite offset size v) :: rest →
      (size = 4 ∧ offset % 4 = 0 ∧ offset < 0x1000 →
        step s ≠ .refused .registerAccessForm ∧ (offset ≠ 0x00C → ∃ t, step s = .next t)) ∧
      (¬ (size = 4 ∧ offset % 4 = 0 ∧ offset < 0x1000) →
        step s = .refused .registerAccessForm))

/-- A write to CMD while idle accepts any word: CMD, the five latched operands, BUSY, DONE and ERR
change together and nothing else; but a launch with a declared region that is not plain memory is
refused (R29, R35, R58; which regions those are is the model's choice and reading, log entries 6 and
9). While busy the write sets OVR and changes nothing else (R27, R211). -/
def Obligations.CommandWriteAcceptsOrOverruns : Prop :=
  ∀ (s t : State) (rest : List Slot) (v : Word),
    s.inputs = hostSlot (.regWrite 0x00C 4 v) :: rest →
    (s.status.busy = false →
      t = { s with
        inputs := rest, cmd := v, op := s.regs, status := ⟨true, false, s.status.ovr, 0#4⟩ } →
      (plainMemory s.platform (activeSource t) = true ∧
          plainMemory s.platform (activeWrite t) = true → step s = .next t) ∧
      (plainMemory s.platform (activeSource t) = false ∨
          plainMemory s.platform (activeWrite t) = false →
        step s = .refused .regionNotPlainMemory)) ∧
    (s.status.busy = true →
      step s = .next { s with
        inputs := rest, status := ⟨true, s.status.done, true, s.status.err⟩ })

/-- A write to STATUS clears DONE by bit 1 and OVR by bit 2 and changes no other bit (R24). -/
def Obligations.StatusWriteClearsByOne : Prop :=
  ∀ (s : State) (rest : List Slot) (v : Word),
    s.inputs = hostSlot (.regWrite 0x008 4 v) :: rest →
    step s = .next { s with
      inputs := rest
      status := ⟨s.status.busy, if v.getLsbD 1 then false else s.status.done,
        if v.getLsbD 2 then false else s.status.ovr, s.status.err⟩ }

/-- A write to CTRL without SRST stores bit 0 in IE and changes nothing else (R23). -/
def Obligations.ControlWriteStoresEnable : Prop :=
  ∀ (s : State) (rest : List Slot) (v : Word),
    s.inputs = hostSlot (.regWrite 0x004 4 v) :: rest → v.getLsbD 1 = false →
    step s = .next { s with inputs := rest, ie := v.getLsbD 0 }

/-- A write to an operand register changes that register alone, while a command is active too: the
latched copies keep their values (R30 to R35, R210). -/
def Obligations.OperandWriteChangesOneRegister : Prop :=
  ∀ (s : State) (rest : List Slot) (offset : Nat) (v : Word),
    s.inputs = hostSlot (.regWrite offset 4 v) :: rest →
    (offset = 0x010 →
      step s = .next { s with inputs := rest, regs := { s.regs with srcAddr := v } }) ∧
    (offset = 0x014 →
      step s = .next { s with inputs := rest, regs := { s.regs with srcLen := v } }) ∧
    (offset = 0x018 →
      step s = .next { s with inputs := rest, regs := { s.regs with dstAddr := v } }) ∧
    (offset = 0x01C →
      step s = .next { s with inputs := rest, regs := { s.regs with dstCap := v } }) ∧
    (offset = 0x020 →
      step s = .next { s with inputs := rest, regs := { s.regs with count := v } })

/-- A write to ID, RESULT, IN_USED or a reserved offset is ignored (R22, R36, R37, R38). -/
def Obligations.ReadOnlyWritesAreIgnored : Prop :=
  ∀ (s : State) (rest : List Slot) (offset : Nat) (v : Word),
    s.inputs = hostSlot (.regWrite offset 4 v) :: rest →
    offset = 0x000 ∨ offset = 0x024 ∨ offset = 0x028 ∨
      (offset % 4 = 0 ∧ 0x02C ≤ offset ∧ offset ≤ 0xFFC) →
    step s = .next { s with inputs := rest }

/-- The interrupt output is high exactly when CTRL reads IE = 1 and STATUS reads DONE = 1 (R46). -/
def Obligations.InterruptFollowsDone : Prop :=
  ∀ s : State, s.irq = true ↔
    (readOffset s 0x004).getLsbD 0 = true ∧ (readOffset s 0x008).getLsbD 1 = true

/-- Reset, by `rst` whatever the host does at that moment or by SRST whatever else is written, sets
every register and latched copy, lowers `irq`, leaves an idle block's memory alone, and makes each
byte of an active command's write region, and no other, a free draw (R47, R180, R200 to R205).
The model's own choices and readings in it: the numbering of the draws is log entry 5, the write
region of a failing command and its cut at 2^32 log entry 11, `rst` beside a host access log entry
15, the host's side (the inputs to come, the last reply) left alone log entry 18. -/
def Obligations.ResetSetsEveryRegister : Prop :=
  ∀ (s : State) (slot : Slot) (rest : List Slot), s.inputs = slot :: rest →
    resetsBlock slot = true →
    ∃ t, step s = .next t ∧
      t = { ie := false, status := ⟨false, false, false, 0#4⟩, cmd := 0#32,
            regs := ⟨0#32, 0#32, 0#32, 0#32, 0#32⟩, op := ⟨0#32, 0#32, 0#32, 0#32, 0#32⟩,
            result := 0#32, inUsed := 0#32, mem := t.mem, platform := s.platform, inputs := rest,
            reply := s.reply, draws := t.draws } ∧
      t.irq = false ∧
      (s.status.busy = false → t.mem = s.mem) ∧
      (∀ a, a < (activeWrite s).base ∨ (activeWrite s).base + (activeWrite s).size ≤ a →
        t.mem.read a = s.mem.read a) ∧
      (s.mem.wf → ∀ k < (activeWrite s).size, (activeWrite s).base + k < 2 ^ 32 →
        t.mem.read ((activeWrite s).base + k) = Config.freeByte (s.draws + k))

/-- The regions of the active command (R15, R56, R202): the source of ENC, DEC, DZF and DZI, the
destination of ENC and DEC, the buffer of DZF and DZI; none for NOP, BOUND, an illegal word or an
idle engine. That the forms with no version have the regions of ENC and DEC, and illegal words none,
is the model's reading: log entry 10. -/
def Obligations.ActiveRegionsFollowTable : Prop :=
  ∀ s : State,
    (s.status.busy = false → (activeSource s).size = 0 ∧ (activeWrite s).size = 0) ∧
    (s.status.busy = true →
      (∀ e, decode s.cmd = .error e → (activeSource s).size = 0 ∧ (activeWrite s).size = 0) ∧
      (∀ i w, decode s.cmd = .ok i → i = .nop ∨ i = .bound w →
        (activeSource s).size = 0 ∧ (activeWrite s).size = 0) ∧
      (∀ i w, decode s.cmd = .ok i → i = .dzf w ∨ i = .dzi w →
        activeSource s = ⟨s.op.srcAddr.toNat, s.op.srcLen.toNat⟩ ∧
        activeWrite s = ⟨s.op.srcAddr.toNat, s.op.srcLen.toNat⟩) ∧
      (∀ i w dz ver, decode s.cmd = .ok i →
        i = .encV0 w dz ∨ i = .encV1 w dz ∨ i = .encUnknown ver w dz ∨
          i = .decV0 w dz ∨ i = .decV1 w dz ∨ i = .decUnknown ver w dz →
        activeSource s = ⟨s.op.srcAddr.toNat, s.op.srcLen.toNat⟩ ∧
        activeWrite s = ⟨s.op.dstAddr.toNat, s.op.dstCap.toNat⟩))

/-! ## The host's data memory accesses -/

/-- A host write of any byte of the active command's source or write region stops the run (R208,
hazard HZ1). -/
def Obligations.HostWriteToActiveRegionFaults : Prop :=
  ∀ (s : State) (rest : List Slot) (addr : Word) (bs : List Byte) (k : Nat),
    s.inputs = hostSlot (.memWrite addr bs) :: rest → k < bs.length →
    regionHas (activeSource s) (addr.toNat + k) = true ∨
      regionHas (activeWrite s) (addr.toNat + k) = true →
    step s = .fault .hostWritesActiveRegion

/-- Any other host write to served plain memory stores its bytes and changes nothing else
(R61(b), R208; what it does elsewhere is log entry 13). -/
def Obligations.HostWriteStoresItsBytes : Prop :=
  ∀ (s : State) (rest : List Slot) (addr : Word) (bs : List Byte),
    s.inputs = hostSlot (.memWrite addr bs) :: rest →
    (∀ k < bs.length, regionHas (activeSource s) (addr.toNat + k) = false ∧
      regionHas (activeWrite s) (addr.toNat + k) = false) →
    addr.toNat + bs.length ≤ 2 ^ 32 → onServedMemory s.platform ⟨addr.toNat, bs.length⟩ →
    ∃ t, step s = .next t ∧ t = { s with inputs := rest, mem := t.mem } ∧
      (s.mem.wf → ∀ k (h : k < bs.length), t.mem.read (addr.toNat + k) = bs[k]) ∧
      (∀ a, a < addr.toNat ∨ addr.toNat + bs.length ≤ a → t.mem.read a = s.mem.read a)

/-- A host read of served plain memory returns the bytes memory holds, but a free draw for each
byte of the active command's write region, and does not disturb the command (R61, R209, hazard HZ2).
That the draw for byte k is `Config.freeByte (s.draws + k)` is the model's choice: log entry 5. -/
def Obligations.HostReadReturnsBytes : Prop :=
  ∀ (s : State) (rest : List Slot) (addr : Word) (n : Nat),
    s.inputs = hostSlot (.memRead addr n) :: rest → addr.toNat + n ≤ 2 ^ 32 →
    onServedMemory s.platform ⟨addr.toNat, n⟩ →
    ∃ bs d, step s = .next { s with inputs := rest, reply := .mem bs, draws := d } ∧
      bs.length = n ∧
      (∀ k < n, regionHas (activeWrite s) (addr.toNat + k) = false →
        bs[k]? = some (s.mem.read (addr.toNat + k))) ∧
      (∀ k < n, regionHas (activeWrite s) (addr.toNat + k) = true →
        bs[k]? = some (Config.freeByte (s.draws + k)))

/-! ## The whole machine -/

/-- The registers and the memory are consistent after reset (R47). -/
def Obligations.ResetIsConsistent : Prop := Consistent State.reset

/-- Every step, of the engine, the host or reset, keeps the registers and the memory consistent: no
ERR above 8 (R172), no DONE or ERR while busy (R40), RESULT and IN_USED 0 after an error (R36, R37),
the declared regions of an active command plain memory (R58; log entries 6 and 9), and memory in
its canonical form (the model's own: log entry 7). -/
def Obligations.StepKeepsConsistent : Prop :=
  ∀ s t : State, Consistent s → step s = .next t → Consistent t

/-- A command that completes changes only STATUS, RESULT, IN_USED and data memory: BUSY falls, DONE
rises, OVR stays; CTRL, CMD, the operand registers and their latched copies keep their values
(R173, R175, R176, R177). -/
def Obligations.CommandChangesOnlyItsResults : Prop :=
  ∀ (i : Instr) (s t : State), exec i s = .next t →
    t = { s with
      status := ⟨false, true, s.status.ovr, t.status.err⟩
      result := t.result
      inUsed := t.inUsed
      mem := t.mem }

/-- The bytes of memory a command may change (R56, R68, R175): none on an error, none for NOP, BOUND
and the unknown versions, RESULT bytes from DST_ADDR for an encode or decode, the source region for
an in-place transform. -/
def Obligations.CommandMemoryFrame : Prop :=
  ∀ (s t : State) (w : BitVec 3) (dz : Bool) (ver : BitVec 4),
    (∀ i, exec i s = .next t → t.status.err ≠ 0#4 → t.mem = s.mem) ∧
    (∀ i, i = .nop ∨ i = .bound w ∨ i = .encUnknown ver w dz ∨ i = .decUnknown ver w dz →
      exec i s = .next t → t.mem = s.mem) ∧
    (∀ i, i = .encV0 w dz ∨ i = .encV1 w dz ∨ i = .decV0 w dz ∨ i = .decV1 w dz →
      exec i s = .next t →
      ∀ a, a < s.op.dstAddr.toNat ∨ s.op.dstAddr.toNat + t.result.toNat ≤ a →
        t.mem.read a = s.mem.read a) ∧
    (∀ i, i = .dzf w ∨ i = .dzi w → exec i s = .next t →
      ∀ a, a < s.op.srcAddr.toNat ∨ s.op.srcAddr.toNat + s.op.srcLen.toNat ≤ a →
        t.mem.read a = s.mem.read a)

/-- A command reads the latched copies and never the visible operand registers: with other visible
registers it does the same and leaves them alone (R35, R210). -/
def Obligations.CommandIgnoresVisibleOperands : Prop :=
  ∀ (i : Instr) (s : State) (r : Operands),
    exec i { s with regs := r } =
      match exec i s with
      | .next t => .next { t with regs := r }
      | .fault f => .fault f
      | .refused q => .refused q

/-- An encode reads no byte outside its source region: over any two memories that agree there it
gives the same STATUS, RESULT and IN_USED and writes the same bytes (R68). -/
def Obligations.EncodeReadsOnlyItsSource : Prop :=
  ∀ (w : BitVec 3) (dz : Bool) (s t : State) (m : Memory) (i : Instr),
    i = .encV0 w dz ∨ i = .encV1 w dz → s.mem.wf → m.wf →
    (∀ a, s.op.srcAddr.toNat ≤ a → a < s.op.srcAddr.toNat + s.op.srcLen.toNat →
      m.read a = s.mem.read a) →
    exec i s = .next t →
    ∃ t', exec i { s with mem := m } = .next t' ∧ t'.status = t.status ∧ t'.result = t.result ∧
      t'.inUsed = t.inUsed ∧
      ∀ a, s.op.dstAddr.toNat ≤ a → a < s.op.dstAddr.toNat + t.result.toNat →
        t'.mem.read a = t.mem.read a

/-- A successful decode reads no byte beyond the stream it consumed: over any two memories that agree
on the first IN_USED bytes of the source it gives the same STATUS, RESULT and IN_USED and writes the
same bytes (R68, R120). -/
def Obligations.DecodeReadsOnlyItsStream : Prop :=
  ∀ (w : BitVec 3) (dz : Bool) (s t : State) (m : Memory) (i : Instr),
    i = .decV0 w dz ∨ i = .decV1 w dz → s.mem.wf → m.wf →
    exec i s = .next t → t.status.err = 0#4 →
    (∀ a, s.op.srcAddr.toNat ≤ a → a < s.op.srcAddr.toNat + t.inUsed.toNat →
      m.read a = s.mem.read a) →
    ∃ t', exec i { s with mem := m } = .next t' ∧ t'.status = t.status ∧ t'.result = t.result ∧
      t'.inUsed = t.inUsed ∧
      ∀ a, s.op.dstAddr.toNat ≤ a → a < s.op.dstAddr.toNat + t.result.toNat →
        t'.mem.read a = t.mem.read a

/-- DONE rises only when the engine completes an active command (R26, R41). -/
def Obligations.DoneRisesOnlyAtCompletion : Prop :=
  ∀ s t : State, step s = .next t → s.status.done = false → t.status.done = true →
    s.status.busy = true ∧ t.status.busy = false ∧
      (s.inputs = [] ∨ ∃ rest, s.inputs = engineSlot :: rest)

/-- BUSY rises only when a host write to CMD is accepted (R25, R187). -/
def Obligations.BusyRisesOnlyAtAcceptance : Prop :=
  ∀ s t : State, step s = .next t → s.status.busy = false → t.status.busy = true →
    ∃ v rest, s.inputs = hostSlot (.regWrite 0x00C 4 v) :: rest ∧ t.cmd = v ∧ t.op = s.regs

/-- BUSY falls only at a completion, which sets DONE, or at a reset, which does not (R25, R202). -/
def Obligations.BusyFallsOnlyAtCompletionOrReset : Prop :=
  ∀ s t : State, step s = .next t → s.status.busy = true → t.status.busy = false →
    (t.status.done = true ∧ (s.inputs = [] ∨ ∃ rest, s.inputs = engineSlot :: rest)) ∨
    (t.status.done = false ∧ ∃ slot rest, s.inputs = slot :: rest ∧ resetsBlock slot = true)

/-- OVR stays 1 until a write of STATUS with bit 2 set, or a reset (R27). -/
def Obligations.OverrunStaysUntilCleared : Prop :=
  ∀ s t : State, step s = .next t → s.status.ovr = true → t.status.ovr = false →
    ∃ slot rest, s.inputs = slot :: rest ∧
      (resetsBlock slot = true ∨
        ∃ v : Word, slot = hostSlot (.regWrite 0x008 4 v) ∧ v.getLsbD 2 = true)

/-- Data memory changes only at the completion of an active command, at a reset that aborts one, or
at a host write (R61, R187, R201). -/
def Obligations.MemoryChangesOnlyByItsWriters : Prop :=
  ∀ s t : State, step s = .next t → t.mem ≠ s.mem →
    (s.status.busy = true ∧ t.status.busy = false ∧ t.status.err = 0#4) ∨
    (∃ addr bs rest, s.inputs = hostSlot (.memWrite addr bs) :: rest)

/-- CTRL.IE and the operand registers change only at a register write of the host or a reset, and
the latched copies only at an acceptance or a reset (R23, R30 to R35). -/
def Obligations.ControlChangesOnlyByTheHost : Prop :=
  ∀ s t : State, step s = .next t →
    (t.ie ≠ s.ie ∨ t.regs ≠ s.regs →
      ∃ slot rest, s.inputs = slot :: rest ∧
        (resetsBlock slot = true ∨ ∃ offset v, slot = hostSlot (.regWrite offset 4 v))) ∧
    (t.op ≠ s.op →
      ∃ slot rest, s.inputs = slot :: rest ∧
        (resetsBlock slot = true ∨
          (s.status.busy = false ∧ t.op = s.regs ∧
            ∃ v, slot = hostSlot (.regWrite 0x00C 4 v))))

/-- A CMD write while idle is refused when a byte of a region that its command declares, by the
operands the host sees, lies in the register window or in a device: the source of ENC, DEC, DZF and
DZI, the destination of ENC and DEC (R58). What lies in a device and that the window lies below 2^32
are the model's choices, log entries 6 and 22; that a command with no version declares its regions
too, whatever error it would end in, is its reading, log entry 9. -/
def Obligations.LaunchOnDeviceIsRefused : Prop :=
  ∀ (s : State) (rest : List Slot) (v : Word) (i : Instr) (w : BitVec 3) (dz : Bool)
    (ver : BitVec 4) (a : Nat),
    s.inputs = hostSlot (.regWrite 0x00C 4 v) :: rest → s.status.busy = false →
    decode v = .ok i →
    (s.platform.regPage.toNat * 4096 ≤ a ∧ a < s.platform.regPage.toNat * 4096 + 4096) ∨
      (∃ d ∈ s.platform.devices, d.base ≤ a ∧ a < d.base + d.size) →
    (i = .dzf w ∨ i = .dzi w ∨ i = .encV0 w dz ∨ i = .encV1 w dz ∨ i = .encUnknown ver w dz ∨
        i = .decV0 w dz ∨ i = .decV1 w dz ∨ i = .decUnknown ver w dz →
      s.regs.srcAddr.toNat ≤ a → a < s.regs.srcAddr.toNat + s.regs.srcLen.toNat →
      step s = .refused .regionNotPlainMemory) ∧
    (i = .encV0 w dz ∨ i = .encV1 w dz ∨ i = .encUnknown ver w dz ∨
        i = .decV0 w dz ∨ i = .decV1 w dz ∨ i = .decUnknown ver w dz →
      s.regs.dstAddr.toNat ≤ a → a < s.regs.dstAddr.toNat + s.regs.dstCap.toNat →
      step s = .refused .regionNotPlainMemory)
end

