-- ==== Sys2Proof/Laws/Memory.lean ====
section
/-! SUPPORT. Data memory: reading after writing, and that every operation keeps the canonical form,
in which memories with equal bytes are equal data. -/

namespace Sys2Proof.Machine

/-- An address below every listed one reads 0. -/
theorem Memory.read_below (m : Memory) (a : Nat) (h : ∀ c ∈ m, a < c.1) : m.read a = 0#8 := by
  induction m with
  | nil => rfl
  | cons c m ih =>
    have hc := h c (by simp)
    rw [Memory.read, if_neg (by omega)]
    exact ih fun d hd => h d (by simp [hd])

/-- The rest of a canonical memory lies above its first address. -/
theorem Memory.wf_cons {c : Host.Cell} {m : Memory} (h : Memory.wf (c :: m)) :
    (∀ d ∈ m, c.1 < d.1) ∧ c.1 < Config.addressSpace ∧ c.2 ≠ 0#8 ∧ Memory.wf m := by
  obtain ⟨hp, hb⟩ := h
  rw [List.pairwise_cons] at hp
  exact ⟨hp.1, (hb c (by simp)).1, (hb c (by simp)).2, hp.2, fun d hd => hb d (by simp [hd])⟩

/-- The addresses of a written memory: the old ones and the written one. -/
theorem Memory.mem_write {m : Memory} {a : Nat} {b : Byte} {c : Host.Cell}
    (h : c ∈ m.write a b) : c ∈ m ∨ (c = (a, b) ∧ b ≠ 0#8) := by
  induction m with
  | nil =>
    unfold Memory.write at h
    split at h <;> simp_all
  | cons d m ih =>
    unfold Memory.write at h
    split at h
    · split at h
      · exact .inl h
      · rename_i h1 h2
        rcases List.mem_cons.mp h with h | h
        · exact .inr ⟨h, h2⟩
        · exact .inl h
    · split at h
      · split at h
        · exact .inl (by simp [h])
        · rename_i h1 h2 h3
          rcases List.mem_cons.mp h with h | h
          · exact .inr ⟨h, h3⟩
          · exact .inl (by simp [h])
      · rcases List.mem_cons.mp h with h | h
        · simp [h]
        · rcases ih h with h | h
          · simp [h]
          · exact .inr h

/-- Writing keeps the canonical form. -/
theorem Memory.write_wf (m : Memory) (a : Nat) (b : Byte) (h : m.wf)
    (ha : a < Config.addressSpace) : (m.write a b).wf := by
  induction m with
  | nil =>
    unfold Memory.write
    split <;> simp_all [Memory.wf]
  | cons c m ih =>
    obtain ⟨hlt, hc, hnz, hm⟩ := Memory.wf_cons h
    unfold Memory.write
    split
    · split
      · exact h
      · rename_i h1 h2
        refine ⟨List.pairwise_cons.mpr ⟨?_, h.1⟩, ?_⟩
        · intro d hd
          rcases List.mem_cons.mp hd with rfl | hd
          · exact h1
          · exact Nat.lt_trans h1 (hlt d hd)
        · intro d hd
          rcases List.mem_cons.mp hd with rfl | hd
          · exact ⟨ha, h2⟩
          · exact h.2 d hd
    · split
      · split
        · exact hm
        · rename_i h1 h2 h3
          refine ⟨List.pairwise_cons.mpr ⟨fun d hd => by rw [h2]; exact hlt d hd, hm.1⟩, ?_⟩
          intro d hd
          rcases List.mem_cons.mp hd with rfl | hd
          · exact ⟨ha, h3⟩
          · exact hm.2 d hd
      · rename_i h1 h2
        have hw := ih hm
        refine ⟨List.pairwise_cons.mpr ⟨?_, hw.1⟩, ?_⟩
        · intro d hd
          rcases Memory.mem_write hd with hd | hd
          · exact hlt d hd
          · rw [hd.1]; simp only; omega
        · intro d hd
          rcases List.mem_cons.mp hd with rfl | hd
          · exact ⟨hc, hnz⟩
          · exact hw.2 d hd

/-- A write leaves every other byte alone. -/
theorem Memory.read_write_other (m : Memory) (a x : Nat) (b : Byte) (h : x ≠ a) :
    (m.write a b).read x = m.read x := by
  induction m with
  | nil =>
    unfold Memory.write
    split <;> simp [Memory.read, Ne.symm h]
  | cons c m ih =>
    unfold Memory.write
    split
    · split
      · rfl
      · rw [Memory.read, if_neg (Ne.symm h)]
    · split
      · rename_i h1 h2
        split
        · rw [Memory.read, if_neg (by omega)]
        · rw [Memory.read, if_neg (Ne.symm h), Memory.read, if_neg (by omega)]
      · simp only [Memory.read, ih]

/-- Reading a byte just written gives it, in a canonical memory. -/
theorem Memory.read_write_same (m : Memory) (a : Nat) (b : Byte) (h : m.wf) :
    (m.write a b).read a = b := by
  induction m with
  | nil =>
    unfold Memory.write
    split <;> simp_all [Memory.read]
  | cons c m ih =>
    obtain ⟨hlt, -, -, hm⟩ := Memory.wf_cons h
    unfold Memory.write
    split
    · rename_i h1
      split
      · rename_i h2
        rw [h2]
        apply Memory.read_below
        intro d hd
        rcases List.mem_cons.mp hd with rfl | hd
        · exact h1
        · exact Nat.lt_trans h1 (hlt d hd)
      · simp [Memory.read]
    · split
      · rename_i h1 h2
        split
        · rename_i h3
          rw [h3, h2]
          exact Memory.read_below m c.1 hlt
        · simp [Memory.read]
      · rename_i h1 h2
        rw [Memory.read, if_neg (Ne.symm h2)]
        exact ih hm

/-- Canonical memories with equal bytes are equal. -/
theorem Memory.ext_of_wf (m k : Memory) (hm : m.wf) (hk : k.wf)
    (h : ∀ a, m.read a = k.read a) : m = k := by
  induction m generalizing k with
  | nil =>
    cases k with
    | nil => rfl
    | cons d k =>
      have := h d.1
      simp only [Memory.read, if_true] at this
      exact absurd this.symm (Memory.wf_cons hk).2.2.1
  | cons c m ih =>
    obtain ⟨hlt, -, hnz, hwm⟩ := Memory.wf_cons hm
    cases k with
    | nil =>
      have := h c.1
      simp only [Memory.read, if_true] at this
      exact absurd this hnz
    | cons d k =>
      obtain ⟨hlt', -, hnz', hwk⟩ := Memory.wf_cons hk
      have hcd : c.1 = d.1 := by
        rcases Nat.lt_trichotomy c.1 d.1 with hl | he | hl
        · have := h c.1
          rw [Memory.read, if_pos rfl, Memory.read_below (d :: k) c.1 (by
            intro e he
            rcases List.mem_cons.mp he with rfl | he
            · exact hl
            · exact Nat.lt_trans hl (hlt' e he))] at this
          exact absurd this hnz
        · exact he
        · have := h d.1
          rw [Memory.read_below (c :: m) d.1 (by
            intro e he
            rcases List.mem_cons.mp he with rfl | he
            · exact hl
            · exact Nat.lt_trans hl (hlt e he)), Memory.read, if_pos rfl] at this
          exact absurd this.symm hnz'
      have hv : c.2 = d.2 := by
        have := h c.1
        rwa [Memory.read, if_pos rfl, Memory.read, if_pos hcd.symm] at this
      have hrest : ∀ a, Memory.read m a = Memory.read k a := by
        intro a
        by_cases ha : a = c.1
        · rw [ha, Memory.read_below m c.1 hlt, Memory.read_below k c.1 (by rw [hcd]; exact hlt')]
        · have := h a
          rwa [Memory.read, if_neg (Ne.symm ha), Memory.read, if_neg (by rw [← hcd]; exact Ne.symm ha)]
            at this
      rw [Prod.ext hcd hv, ih k hwm hwk hrest]

/-! ## Byte lists -/

@[simp] theorem readBytes_length (m : Memory) (a n : Nat) : (readBytes m a n).length = n := by
  induction n generalizing a with
  | zero => rfl
  | succ n ih => simp [readBytes, ih]

theorem readBytes_getElem (m : Memory) (a n k : Nat) (h : k < (readBytes m a n).length) :
    (readBytes m a n)[k] = m.read (a + k) := by
  induction n generalizing a k with
  | zero => simp [readBytes] at h
  | succ n ih =>
    cases k with
    | zero => simp [readBytes]
    | succ k =>
      simp only [readBytes, List.getElem_cons_succ]
      rw [ih]
      congr 1
      omega

/-- Reading depends on nothing but the bytes read. -/
theorem readBytes_congr (m k : Memory) (a n : Nat)
    (h : ∀ x, a ≤ x → x < a + n → m.read x = k.read x) : readBytes m a n = readBytes k a n := by
  apply List.ext_getElem (by simp)
  intro i h1 h2
  rw [readBytes_getElem, readBytes_getElem]
  rw [readBytes_length] at h1
  exact h _ (by omega) (by omega)

theorem readBytes_append (m : Memory) (a n k : Nat) :
    readBytes m a (n + k) = readBytes m a n ++ readBytes m (a + n) k := by
  induction n generalizing a with
  | zero => simp [readBytes]
  | succ n ih =>
    rw [show n + 1 + k = (n + k) + 1 by omega]
    simp only [readBytes, List.cons_append, ih]
    rw [show a + 1 + n = a + (n + 1) by omega]

/-- Writing a list of bytes inside the address space keeps the canonical form. -/
theorem writeBytes_wf (m : Memory) (a : Nat) (bs : List Byte) (h : m.wf)
    (ha : a + bs.length ≤ Config.addressSpace) : (writeBytes m a bs).wf := by
  induction bs generalizing m a with
  | nil => exact h
  | cons b bs ih =>
    simp only [List.length_cons] at ha
    exact ih _ _ (Memory.write_wf m a b h (by omega)) (by omega)

/-- A list write leaves every byte outside it alone. -/
theorem read_writeBytes_outside (m : Memory) (a : Nat) (bs : List Byte) (x : Nat)
    (h : x < a ∨ a + bs.length ≤ x) : (writeBytes m a bs).read x = m.read x := by
  induction bs generalizing m a with
  | nil => rfl
  | cons b bs ih =>
    simp only [List.length_cons] at h
    rw [writeBytes, ih _ _ (by omega), Memory.read_write_other _ _ _ _ (by omega)]

/-- A list write stores its bytes, in a canonical memory. -/
theorem read_writeBytes_inside (m : Memory) (a : Nat) (bs : List Byte) (h : m.wf)
    (ha : a + bs.length ≤ Config.addressSpace) (k : Nat) (hk : k < bs.length) :
    (writeBytes m a bs).read (a + k) = bs[k] := by
  induction bs generalizing m a k with
  | nil => simp at hk
  | cons b bs ih =>
    simp only [List.length_cons] at ha hk
    have hw := Memory.write_wf m a b h (by omega)
    cases k with
    | zero =>
      rw [writeBytes, Nat.add_zero, read_writeBytes_outside _ _ _ _ (by omega)]
      exact Memory.read_write_same m a b h
    | succ k =>
      rw [writeBytes, show a + (k + 1) = a + 1 + k by omega]
      exact ih _ _ hw (by omega) k (by omega)

/-- Reading back a list just written. -/
theorem readBytes_writeBytes (m : Memory) (a : Nat) (bs : List Byte) (h : m.wf)
    (ha : a + bs.length ≤ Config.addressSpace) :
    readBytes (writeBytes m a bs) a bs.length = bs := by
  apply List.ext_getElem (by simp)
  intro i h1 h2
  rw [readBytes_getElem]
  exact read_writeBytes_inside m a bs h ha i h2

end Sys2Proof.Machine
end

