-- ==== Sys2Proof/Laws/State.lean ====
section
/-! SUPPORT. One lemma per field of State per named update, true by definition, so that no later
proof unfolds a record update. -/

namespace Sys2Proof.Machine

/-! ## acceptCommand -/

@[simp] theorem acceptCommand_ie (w : Word) (s : State) : (acceptCommand w s).ie = s.ie := rfl
@[simp] theorem acceptCommand_status (w : Word) (s : State) :
    (acceptCommand w s).status = acceptedStatus s.status := rfl
@[simp] theorem acceptCommand_cmd (w : Word) (s : State) : (acceptCommand w s).cmd = w := rfl
@[simp] theorem acceptCommand_regs (w : Word) (s : State) : (acceptCommand w s).regs = s.regs := rfl
@[simp] theorem acceptCommand_op (w : Word) (s : State) : (acceptCommand w s).op = s.regs := rfl
@[simp] theorem acceptCommand_result (w : Word) (s : State) :
    (acceptCommand w s).result = s.result := rfl
@[simp] theorem acceptCommand_inUsed (w : Word) (s : State) :
    (acceptCommand w s).inUsed = s.inUsed := rfl
@[simp] theorem acceptCommand_mem (w : Word) (s : State) : (acceptCommand w s).mem = s.mem := rfl
@[simp] theorem acceptCommand_platform (w : Word) (s : State) :
    (acceptCommand w s).platform = s.platform := rfl
@[simp] theorem acceptCommand_inputs (w : Word) (s : State) :
    (acceptCommand w s).inputs = s.inputs := rfl
@[simp] theorem acceptCommand_reply (w : Word) (s : State) :
    (acceptCommand w s).reply = s.reply := rfl
@[simp] theorem acceptCommand_draws (w : Word) (s : State) :
    (acceptCommand w s).draws = s.draws := rfl

/-! ## completionStep -/

@[simp] theorem completionStep_ie (e : BitVec 4) (r u : Word) (s : State) :
    (completionStep e r u s).ie = s.ie := rfl
@[simp] theorem completionStep_status (e : BitVec 4) (r u : Word) (s : State) :
    (completionStep e r u s).status = completedStatus e s.status := rfl
@[simp] theorem completionStep_cmd (e : BitVec 4) (r u : Word) (s : State) :
    (completionStep e r u s).cmd = s.cmd := rfl
@[simp] theorem completionStep_regs (e : BitVec 4) (r u : Word) (s : State) :
    (completionStep e r u s).regs = s.regs := rfl
@[simp] theorem completionStep_op (e : BitVec 4) (r u : Word) (s : State) :
    (completionStep e r u s).op = s.op := rfl
@[simp] theorem completionStep_result (e : BitVec 4) (r u : Word) (s : State) :
    (completionStep e r u s).result = r := rfl
@[simp] theorem completionStep_inUsed (e : BitVec 4) (r u : Word) (s : State) :
    (completionStep e r u s).inUsed = u := rfl
@[simp] theorem completionStep_mem (e : BitVec 4) (r u : Word) (s : State) :
    (completionStep e r u s).mem = s.mem := rfl
@[simp] theorem completionStep_platform (e : BitVec 4) (r u : Word) (s : State) :
    (completionStep e r u s).platform = s.platform := rfl
@[simp] theorem completionStep_inputs (e : BitVec 4) (r u : Word) (s : State) :
    (completionStep e r u s).inputs = s.inputs := rfl
@[simp] theorem completionStep_reply (e : BitVec 4) (r u : Word) (s : State) :
    (completionStep e r u s).reply = s.reply := rfl
@[simp] theorem completionStep_draws (e : BitVec 4) (r u : Word) (s : State) :
    (completionStep e r u s).draws = s.draws := rfl

/-! ## complete -/

@[simp] theorem complete_ie (r u : Nat) (s : State) : (complete r u s).ie = s.ie := rfl
@[simp] theorem complete_status (r u : Nat) (s : State) :
    (complete r u s).status = completedStatus 0#4 s.status := rfl
@[simp] theorem complete_cmd (r u : Nat) (s : State) : (complete r u s).cmd = s.cmd := rfl
@[simp] theorem complete_regs (r u : Nat) (s : State) : (complete r u s).regs = s.regs := rfl
@[simp] theorem complete_op (r u : Nat) (s : State) : (complete r u s).op = s.op := rfl
@[simp] theorem complete_result (r u : Nat) (s : State) :
    (complete r u s).result = BitVec.ofNat 32 r := rfl
@[simp] theorem complete_inUsed (r u : Nat) (s : State) :
    (complete r u s).inUsed = BitVec.ofNat 32 u := rfl
@[simp] theorem complete_mem (r u : Nat) (s : State) : (complete r u s).mem = s.mem := rfl
@[simp] theorem complete_platform (r u : Nat) (s : State) :
    (complete r u s).platform = s.platform := rfl
@[simp] theorem complete_inputs (r u : Nat) (s : State) : (complete r u s).inputs = s.inputs := rfl
@[simp] theorem complete_reply (r u : Nat) (s : State) : (complete r u s).reply = s.reply := rfl
@[simp] theorem complete_draws (r u : Nat) (s : State) : (complete r u s).draws = s.draws := rfl

/-! ## raiseError -/

@[simp] theorem raiseError_ie (e : ErrorCause) (s : State) : (raiseError e s).ie = s.ie := rfl
@[simp] theorem raiseError_status (e : ErrorCause) (s : State) :
    (raiseError e s).status = completedStatus (errorCode e) s.status := rfl
@[simp] theorem raiseError_cmd (e : ErrorCause) (s : State) : (raiseError e s).cmd = s.cmd := rfl
@[simp] theorem raiseError_regs (e : ErrorCause) (s : State) : (raiseError e s).regs = s.regs := rfl
@[simp] theorem raiseError_op (e : ErrorCause) (s : State) : (raiseError e s).op = s.op := rfl
@[simp] theorem raiseError_result (e : ErrorCause) (s : State) :
    (raiseError e s).result = 0#32 := rfl
@[simp] theorem raiseError_inUsed (e : ErrorCause) (s : State) :
    (raiseError e s).inUsed = 0#32 := rfl
@[simp] theorem raiseError_mem (e : ErrorCause) (s : State) : (raiseError e s).mem = s.mem := rfl
@[simp] theorem raiseError_platform (e : ErrorCause) (s : State) :
    (raiseError e s).platform = s.platform := rfl
@[simp] theorem raiseError_inputs (e : ErrorCause) (s : State) :
    (raiseError e s).inputs = s.inputs := rfl
@[simp] theorem raiseError_reply (e : ErrorCause) (s : State) :
    (raiseError e s).reply = s.reply := rfl
@[simp] theorem raiseError_draws (e : ErrorCause) (s : State) :
    (raiseError e s).draws = s.draws := rfl

/-! ## acknowledge -/

@[simp] theorem acknowledge_ie (v : Word) (s : State) : (acknowledge v s).ie = s.ie := rfl
@[simp] theorem acknowledge_status (v : Word) (s : State) :
    (acknowledge v s).status = writeStatus v s.status := rfl
@[simp] theorem acknowledge_cmd (v : Word) (s : State) : (acknowledge v s).cmd = s.cmd := rfl
@[simp] theorem acknowledge_regs (v : Word) (s : State) : (acknowledge v s).regs = s.regs := rfl
@[simp] theorem acknowledge_op (v : Word) (s : State) : (acknowledge v s).op = s.op := rfl
@[simp] theorem acknowledge_result (v : Word) (s : State) :
    (acknowledge v s).result = s.result := rfl
@[simp] theorem acknowledge_inUsed (v : Word) (s : State) :
    (acknowledge v s).inUsed = s.inUsed := rfl
@[simp] theorem acknowledge_mem (v : Word) (s : State) : (acknowledge v s).mem = s.mem := rfl
@[simp] theorem acknowledge_platform (v : Word) (s : State) :
    (acknowledge v s).platform = s.platform := rfl
@[simp] theorem acknowledge_inputs (v : Word) (s : State) :
    (acknowledge v s).inputs = s.inputs := rfl
@[simp] theorem acknowledge_reply (v : Word) (s : State) : (acknowledge v s).reply = s.reply := rfl
@[simp] theorem acknowledge_draws (v : Word) (s : State) : (acknowledge v s).draws = s.draws := rfl

/-! ## storeBytes -/

@[simp] theorem storeBytes_ie (a : Nat) (bs : List Byte) (s : State) :
    (storeBytes a bs s).ie = s.ie := rfl
@[simp] theorem storeBytes_status (a : Nat) (bs : List Byte) (s : State) :
    (storeBytes a bs s).status = s.status := rfl
@[simp] theorem storeBytes_cmd (a : Nat) (bs : List Byte) (s : State) :
    (storeBytes a bs s).cmd = s.cmd := rfl
@[simp] theorem storeBytes_regs (a : Nat) (bs : List Byte) (s : State) :
    (storeBytes a bs s).regs = s.regs := rfl
@[simp] theorem storeBytes_op (a : Nat) (bs : List Byte) (s : State) :
    (storeBytes a bs s).op = s.op := rfl
@[simp] theorem storeBytes_result (a : Nat) (bs : List Byte) (s : State) :
    (storeBytes a bs s).result = s.result := rfl
@[simp] theorem storeBytes_inUsed (a : Nat) (bs : List Byte) (s : State) :
    (storeBytes a bs s).inUsed = s.inUsed := rfl
@[simp] theorem storeBytes_mem (a : Nat) (bs : List Byte) (s : State) :
    (storeBytes a bs s).mem = writeBytes s.mem a bs := rfl
@[simp] theorem storeBytes_platform (a : Nat) (bs : List Byte) (s : State) :
    (storeBytes a bs s).platform = s.platform := rfl
@[simp] theorem storeBytes_inputs (a : Nat) (bs : List Byte) (s : State) :
    (storeBytes a bs s).inputs = s.inputs := rfl
@[simp] theorem storeBytes_reply (a : Nat) (bs : List Byte) (s : State) :
    (storeBytes a bs s).reply = s.reply := rfl
@[simp] theorem storeBytes_draws (a : Nat) (bs : List Byte) (s : State) :
    (storeBytes a bs s).draws = s.draws := rfl

/-! ## resetBlock -/

@[simp] theorem resetBlock_ie (s : State) : (resetBlock s).ie = false := rfl
@[simp] theorem resetBlock_status (s : State) : (resetBlock s).status = Status.zero := rfl
@[simp] theorem resetBlock_cmd (s : State) : (resetBlock s).cmd = 0#32 := rfl
@[simp] theorem resetBlock_regs (s : State) : (resetBlock s).regs = Operands.zero := rfl
@[simp] theorem resetBlock_op (s : State) : (resetBlock s).op = Operands.zero := rfl
@[simp] theorem resetBlock_result (s : State) : (resetBlock s).result = 0#32 := rfl
@[simp] theorem resetBlock_inUsed (s : State) : (resetBlock s).inUsed = 0#32 := rfl
@[simp] theorem resetBlock_mem (s : State) : (resetBlock s).mem = abortedMemory s := rfl
@[simp] theorem resetBlock_platform (s : State) : (resetBlock s).platform = s.platform := rfl
@[simp] theorem resetBlock_inputs (s : State) : (resetBlock s).inputs = s.inputs := rfl
@[simp] theorem resetBlock_reply (s : State) : (resetBlock s).reply = s.reply := rfl
@[simp] theorem resetBlock_draws (s : State) :
    (resetBlock s).draws = s.draws + abortedCount s := rfl

/-! ## STATUS -/

@[simp] theorem acceptedStatus_eq (f : Status) :
    acceptedStatus f = ⟨true, false, f.ovr, 0#4⟩ := rfl
@[simp] theorem completedStatus_eq (e : BitVec 4) (f : Status) :
    completedStatus e f = ⟨false, true, f.ovr, e⟩ := rfl
@[simp] theorem overrunStatus_eq (f : Status) :
    overrunStatus f = ⟨f.busy, f.done, true, f.err⟩ := rfl
@[simp] theorem writeStatus_eq (v : Word) (f : Status) :
    writeStatus v f = ⟨f.busy, f.done && !v.getLsbD 1, f.ovr && !v.getLsbD 2, f.err⟩ := rfl

end Sys2Proof.Machine
end

