-- ==== Sys2Proof/Laws/Operands.lean ====
section
/-! SUPPORT. The checks on operands as facts on numbers, regions as sets of bytes, and element
sequences read from memory and written to it. -/

namespace Sys2Proof.Machine

/-! ## Checks -/

theorem legalWidth_iff (w : BitVec 3) : legalWidth w = true ↔ widthLegal w := by
  revert w; decide

theorem widthBytes_pos {w : BitVec 3} (h : widthLegal w) : 0 < widthBytes w := by
  rcases h with h | h | h <;> simp [widthBytes, h]

theorem widthBytes_le (w : BitVec 3) (h : widthLegal w) : widthBytes w ≤ 4 := by
  rcases h with h | h | h <;> simp [widthBytes, h]

theorem badInputSize_iff (w : BitVec 3) (op : Operands) :
    badInputSize w op = false ↔ sizeAccepted w op := by
  have h := legalWidth_iff w
  cases hw : legalWidth w <;> simp_all [badInputSize, sizeAccepted, widthBytes]

theorem wraps_source_iff (op : Operands) : wraps (sourceOf op) = false ↔ sourceFits op := by
  rw [wraps, Bool.not_eq_false']
  exact decide_eq_true_iff

theorem wraps_dest_iff (op : Operands) : wraps (destOf op) = false ↔ destFits op := by
  rw [wraps, Bool.not_eq_false']
  exact decide_eq_true_iff

theorem regionsMeet_operands_iff (op : Operands) :
    regionsMeet (sourceOf op) (destOf op) = true ↔ regionsShare op :=
  decide_eq_true_iff

/-! ## Regions as sets of bytes -/

/-- Two regions meet exactly when they share a byte. -/
theorem regionsMeet_iff (r q : Region) :
    regionsMeet r q = true ↔ ∃ a, regionHas r a = true ∧ regionHas q a = true := by
  simp only [regionsMeet, overlap, regionHas, decide_eq_true_eq]
  constructor
  · rintro ⟨h1, h2, h3, h4⟩
    exact ⟨max r.base q.base, by omega, by omega⟩
  · rintro ⟨a, h1, h2⟩
    omega

/-- Inclusion of regions. -/
def regionWithin (r q : Region) : Prop := ∀ a, regionHas r a = true → regionHas q a = true

theorem regionsMeet_of_within {r q u : Region} (h : regionWithin r q)
    (hm : regionsMeet r u = true) : regionsMeet q u = true := by
  rw [regionsMeet_iff] at hm ⊢
  obtain ⟨a, h1, h2⟩ := hm
  exact ⟨a, h a h1, h2⟩

/-- A part of a served region is served. -/
theorem served_within {p : Platform} {r q : Region} (h : regionWithin r q)
    (hq : served p q = true) : served p r = true := by
  simp only [served, Bool.or_eq_true, decide_eq_true_eq, List.all_eq_true, Bool.not_eq_true'] at *
  by_cases hr : r.size = 0
  · exact .inl hr
  · refine .inr fun u hu => ?_
    by_contra hm
    rw [Bool.not_eq_false] at hm
    have hm := regionsMeet_of_within h hm
    rcases hq with hq | hq
    · simp [regionsMeet, overlap, hq] at hm
    · simp [hq u hu] at hm

theorem regionWithin_of_le {a n b k : Nat} (h1 : b ≤ a) (h2 : a + n ≤ b + k) :
    regionWithin ⟨a, n⟩ ⟨b, k⟩ := by
  intro x hx
  simp only [regionHas, decide_eq_true_eq] at *
  omega

/-! ## Elements -/

@[simp] theorem readElements_length (m : Memory) (W a n : Nat) :
    (readElements m W a n).length = n := by
  induction n generalizing a with
  | zero => rfl
  | succ n ih => simp [readElements, ih]

theorem readElements_getElem (m : Memory) (W a n i : Nat)
    (h : i < (readElements m W a n).length) :
    (readElements m W a n)[i] = BitVec.ofNat (8 * W) (memRead m (a + i * W) W) := by
  induction n generalizing a i with
  | zero => simp [readElements] at h
  | succ n ih =>
    cases i with
    | zero => simp [readElements]
    | succ i =>
      simp only [readElements, List.getElem_cons_succ]
      rw [ih]
      congr 2
      ring

/-- MemRead as the sum of R12. -/
theorem memRead_eq_sum (m : Memory) (a n : Nat) :
    memRead m a n = ((List.range n).map fun k => (m.read (a + k)).toNat * 256 ^ k).sum := by
  unfold memRead
  induction n generalizing a with
  | zero => rfl
  | succ n ih =>
    rw [List.range_succ_eq_map]
    simp only [readBytes, leNat, List.map_cons, List.map_map, List.sum_cons, ih, Nat.add_zero,
      Nat.pow_zero, Nat.mul_one, ← List.sum_map_mul_left]
    congr 2
    apply List.map_congr_left
    intro k _
    simp only [Function.comp, Nat.succ_eq_add_one]
    rw [show a + 1 + k = a + (k + 1) by omega, Nat.pow_succ]
    ring

/-- Element i read from a buffer is the buffer's element i. -/
theorem readElements_getElem_eq (m : Memory) (W a n i : Nat)
    (h : i < (readElements m W a n).length) :
    (readElements m W a n)[i] = bufferElement m a W i := by
  rw [readElements_getElem, memRead_eq_sum]
  rfl

@[simp] theorem elementBytes_length (W : Nat) (xs : List (BitVec (8 * W))) :
    (elementBytes W xs).length = W * xs.length := by
  induction xs with
  | nil => rfl
  | cons x xs ih =>
    simp only [elementBytes, List.flatMap_cons, List.length_append, leBytes_length] at *
    rw [ih, List.length_cons]
    ring

/-- Byte k of element i of a sequence of elements. -/
theorem elementBytes_getElem (W : Nat) (xs : List (BitVec (8 * W))) (i k : Nat)
    (hi : i < xs.length) (hk : k < W) (h : i * W + k < (elementBytes W xs).length) :
    (elementBytes W xs)[i * W + k] = BitVec.ofNat 8 (xs[i].toNat / 256 ^ k) := by
  induction xs generalizing i with
  | nil => simp at hi
  | cons x xs ih =>
    simp only [elementBytes, List.flatMap_cons] at *
    cases i with
    | zero =>
      simp only [Nat.zero_mul, Nat.zero_add, List.getElem_cons_zero]
      rw [List.getElem_append_left (by simpa using hk), leBytes_getElem]
    | succ i =>
      rw [List.getElem_append_right (by rw [leBytes_length]; nlinarith)]
      simp only [leBytes_length, List.getElem_cons_succ]
      have e : (i + 1) * W + k - W = i * W + k := by
        rw [Nat.add_mul]; omega
      simp only [e]
      simp only [List.length_cons] at hi
      exact ih i (by omega) (by
        have : i * W + k < W * xs.length := by nlinarith
        have hl := elementBytes_length W xs
        simp only [elementBytes] at hl
        omega)

/-- The elements whose bytes stand in memory, read back. -/
theorem readElements_of_elementBytes (m : Memory) (W a : Nat) (xs : List (BitVec (8 * W)))
    (h : readBytes m a (W * xs.length) = elementBytes W xs) :
    readElements m W a xs.length = xs := by
  induction xs generalizing a with
  | nil => rfl
  | cons x xs ih =>
    have e : W * (x :: xs).length = W + W * xs.length := by simp only [List.length_cons]; ring
    rw [e, readBytes_append] at h
    simp only [elementBytes, List.flatMap_cons] at h
    have hs := List.append_inj h (by simp)
    simp only [List.length_cons, readElements]
    rw [ih (a + W) hs.2]
    congr 1
    rw [memRead, hs.1, leNat_leBytes]
    apply BitVec.eq_of_toNat_eq
    have hx := x.isLt
    rw [BitVec.toNat_ofNat, show 256 ^ W = 2 ^ (8 * W) by rw [Nat.pow_mul], Nat.mod_mod,
      Nat.mod_eq_of_lt hx]

/-- The bytes of the elements read from a buffer are the buffer's bytes. -/
theorem elementBytes_readElements (m : Memory) (W a n : Nat) :
    elementBytes W (readElements m W a n) = readBytes m a (W * n) := by
  induction n generalizing a with
  | zero => rfl
  | succ n ih =>
    rw [show W * (n + 1) = W + W * n by ring, readBytes_append, ← ih]
    simp only [readElements, elementBytes, List.flatMap_cons]
    congr 1
    have hl := leNat_lt (readBytes m a W)
    rw [readBytes_length] at hl
    rw [BitVec.toNat_ofNat, show 2 ^ (8 * W) = 256 ^ W by rw [Nat.pow_mul],
      Nat.mod_eq_of_lt (by unfold memRead; exact hl)]
    have hb := leBytes_leNat (readBytes m a W)
    rw [readBytes_length] at hb
    exact hb

/-- Elements depend on nothing but their bytes. -/
theorem readElements_congr (m k : Memory) (W a n : Nat)
    (h : ∀ x, a ≤ x → x < a + n * W → m.read x = k.read x) :
    readElements m W a n = readElements k W a n := by
  apply List.ext_getElem (by simp)
  intro i h1 h2
  rw [readElements_getElem, readElements_getElem, memRead, memRead]
  rw [readElements_length] at h1
  rw [readBytes_congr m k (a + i * W) W]
  intro x hx1 hx2
  have : i * W + W ≤ n * W := by nlinarith
  exact h x (by omega) (by omega)

end Sys2Proof.Machine
end

