-- ==== Sys2Proof/Laws/Stream.lean ====
section
/-! SUPPORT. The transforms and the stream, entry by entry: lengths, the entry at each index, and
what each depends on. -/

namespace Sys2Proof.Machine

/-! ## Transforms -/

@[simp] theorem forwardDelta_length {n : Nat} (p : BitVec n) (xs : List (BitVec n)) :
    (forwardDelta p xs).length = xs.length := by
  induction xs generalizing p with
  | nil => rfl
  | cons x xs ih => simp [forwardDelta, ih]

@[simp] theorem inverseDelta_length {n : Nat} (p : BitVec n) (xs : List (BitVec n)) :
    (inverseDelta p xs).length = xs.length := by
  induction xs generalizing p with
  | nil => rfl
  | cons x xs ih => simp [inverseDelta, ih]

@[simp] theorem forwardTransform_length {n : Nat} (xs : List (BitVec n)) :
    (forwardTransform xs).length = xs.length := by simp [forwardTransform]

@[simp] theorem inverseTransform_length {n : Nat} (xs : List (BitVec n)) :
    (inverseTransform xs).length = xs.length := by simp [inverseTransform]

/-- Entry i of a delta is entry i less the one before it. -/
theorem forwardDelta_getElem {n : Nat} (p : BitVec n) (xs : List (BitVec n)) (i : Nat)
    (h : i < (forwardDelta p xs).length) :
    (forwardDelta p xs)[i] = xs[i]'(by simpa using h) - (p :: xs)[i]'(by simp at h ⊢; omega) := by
  induction xs generalizing p i with
  | nil => simp [forwardDelta] at h
  | cons x xs ih =>
    cases i with
    | zero => simp [forwardDelta]
    | succ i => simp only [forwardDelta, List.getElem_cons_succ]; rw [ih]

/-- Entry 0 of a prefix sum. -/
theorem inverseDelta_getElem_zero {n : Nat} (p : BitVec n) (ds : List (BitVec n))
    (h : 0 < (inverseDelta p ds).length) :
    (inverseDelta p ds)[0] = p + ds[0]'(by simpa using h) := by
  cases ds with
  | nil => simp [inverseDelta] at h
  | cons d ds => rfl

/-- Entry i+1 of a prefix sum is the entry before it and the difference. -/
theorem inverseDelta_getElem_succ {n : Nat} (p : BitVec n) (ds : List (BitVec n)) (i : Nat)
    (h : i + 1 < (inverseDelta p ds).length) :
    (inverseDelta p ds)[i + 1] = (inverseDelta p ds)[i] + ds[i + 1]'(by simpa using h) := by
  induction ds generalizing p i with
  | nil => simp [inverseDelta] at h
  | cons d ds ih =>
    cases i with
    | zero =>
      simp only [inverseDelta, List.getElem_cons_succ, List.getElem_cons_zero]
      rw [inverseDelta_getElem_zero]
    | succ i =>
      simp only [inverseDelta, List.getElem_cons_succ]
      rw [ih]

/-- Entry i of the inverse transform is the prefix sum of the inverse zig-zags up to i. -/
theorem inverseTransform_getElem {n : Nat} (us : List (BitVec n)) (u : Nat → BitVec n)
    (hu : ∀ i (h : i < us.length), us[i] = u i) (i : Nat)
    (h : i < (inverseTransform us).length) :
    (inverseTransform us)[i] = prefixElement u i := by
  induction i with
  | zero =>
    simp only [inverseTransform]
    rw [inverseDelta_getElem_zero]
    simp [prefixElement, hu]
  | succ i ih =>
    simp only [inverseTransform]
    rw [inverseDelta_getElem_succ]
    have hi := ih (by omega)
    rw [inverseTransform_length] at h
    simp only [inverseTransform] at hi
    rw [hi, List.getElem_map, hu _ h]
    rfl

/-! ## Sizes -/

theorem keybytes_le (n : Nat) : 4 * keybytes n < n + 4 := by unfold keybytes; omega

theorem le_keybytes (n : Nat) : n ≤ 4 * keybytes n := by unfold keybytes; omega

theorem codeLen_bounds (c : BitVec 2) : 1 ≤ codeLen c ∧ codeLen c ≤ 4 := by
  have := c.isLt
  unfold codeLen
  omega

@[simp] theorem keyStreamV0_length (vs : List Word) :
    (keyStreamV0 vs).length = keybytes vs.length := by simp [keyStreamV0]

@[simp] theorem keyStreamV1_length (vs : List Word) :
    (keyStreamV1 vs).length = keybytes vs.length := by simp [keyStreamV1]

/-- The length of a data stream is the sum of the value lengths. -/
theorem dataStream_length (vs : List Word) : (dataStream vs).length = (vs.map keylen).sum := by
  induction vs with
  | nil => rfl
  | cons v vs ih =>
    simp only [dataStream, List.flatMap_cons, List.length_append, List.map_cons, List.sum_cons] at *
    rw [ih]
    simp [valueBytes]

/-- The offset of value i after the key stream is the sum of the lengths before it. -/
theorem streamOffset_eq (vs : List Word) (len : Nat → Nat) (N i : Nat)
    (hlen : ∀ j (h : j < vs.length), keylen vs[j] = len j) (hi : i ≤ vs.length) :
    streamOffset len N i = keybytes N + ((vs.take i).map keylen).sum := by
  induction i with
  | zero => simp [streamOffset]
  | succ i ih =>
    have hs : vs.take (i + 1) = vs.take i ++ [vs[i]'(by omega)] := by
      rw [List.take_succ_eq_append_getElem]
    rw [hs]
    simp only [List.map_append, List.sum_append, List.map_cons, List.map_nil, List.sum_cons,
      List.sum_nil, Nat.add_zero, streamOffset]
    rw [ih (by omega), hlen i (by omega)]
    omega

/-- Byte k of value i of a data stream. -/
theorem dataStream_getElem? (vs : List Word) (i k : Nat) (hi : i < vs.length)
    (hk : k < keylen vs[i]) :
    (dataStream vs)[((vs.take i).map keylen).sum + k]?
      = some (BitVec.ofNat 8 (vs[i].toNat / 256 ^ k)) := by
  induction vs generalizing i with
  | nil => simp at hi
  | cons v vs ih =>
    simp only [dataStream, List.flatMap_cons]
    cases i with
    | zero =>
      simp only [List.getElem_cons_zero] at hk
      have hl : k < (valueBytes v).length := by simpa [valueBytes] using hk
      simp only [List.take_zero, List.map_nil, List.sum_nil, Nat.zero_add,
        List.getElem_cons_zero]
      rw [List.getElem?_append_left hl, List.getElem?_eq_getElem hl]
      simp only [valueBytes]
      rw [leBytes_getElem]
    | succ i =>
      simp only [List.take_succ_cons, List.map_cons, List.sum_cons, List.getElem_cons_succ] at hk ⊢
      rw [List.getElem?_append_right (by simp [valueBytes]; omega)]
      simp only [valueBytes, leBytes_length]
      rw [show keylen v + ((vs.take i).map keylen).sum + k - keylen v
          = ((vs.take i).map keylen).sum + k by omega]
      exact ih i (by simpa using hi) hk

/-! ## Encoder input -/

theorem encoderValues_length (W : Nat) (dz : Bool) (xs : List (BitVec (8 * W))) :
    (encoderValues W dz xs).length = xs.length := by
  cases dz <;> simp [encoderValues]

@[simp] theorem encoderInput_length (w : BitVec 3) (dz : Bool) (s : State) :
    (encoderInput w dz s).length = sourceCount w s.op := by
  simp [encoderInput, encoderValues_length, widthBytes, sourceCount]

/-- Entry i of the forward transform of a buffer's elements. -/
theorem forwardTransform_readElements (m : Memory) (W a n i : Nat)
    (h : i < (forwardTransform (readElements m W a n)).length) :
    (forwardTransform (readElements m W a n))[i] = forwardElement m a W i := by
  simp only [forwardTransform, List.getElem_map]
  rw [forwardDelta_getElem, readElements_getElem_eq]
  cases i with
  | zero => simp [forwardElement, previousElement]
  | succ i =>
    simp only [List.getElem_cons_succ, forwardElement, previousElement]
    rw [readElements_getElem_eq]

/-- Value i an encode packs is the spec's value i. -/
theorem encoderInput_getElem (w : BitVec 3) (dz : Bool) (s : State) (i : Nat)
    (h : i < (encoderInput w dz s).length) :
    (encoderInput w dz s)[i] = encodeValue s.mem s.op.srcAddr.toNat w.toNat dz i := by
  cases dz with
  | true =>
    simp only [encoderInput, encoderValues, if_true, List.getElem_map, encodeValue]
    rw [forwardTransform_readElements]
  | false =>
    simp only [encoderInput, encoderValues, Bool.false_eq_true, if_false, List.getElem_map,
      encodeValue]
    rw [readElements_getElem_eq]

/-- The encoded stream's length is the spec's. -/
theorem encodedStream_length (keys : List Word → List Byte)
    (hk : ∀ vs, (keys vs).length = keybytes vs.length) (w : BitVec 3) (dz : Bool) (s : State) :
    (encodedStream keys (encoderInput w dz s)).length
      = encodeLength s.mem s.op.srcAddr.toNat w.toNat dz (sourceCount w s.op) := by
  rw [encodedStream, List.length_append, hk, dataStream_length, encodeLength,
    streamOffset_eq (encoderInput w dz s) _ _ _
      (fun j h => by rw [encoderInput_getElem]) (by rw [encoderInput_length]),
    encoderInput_length, ← encoderInput_length w dz s, List.take_length]

/-! ## Decoder -/

@[simp] theorem splitValues_length (cs : List (BitVec 2)) (bs : List Byte) :
    (splitValues cs bs).length = cs.length := by
  induction cs generalizing bs with
  | nil => rfl
  | cons c cs ih => simp [splitValues, ih]

@[simp] theorem decoderElements_length (W : Nat) (dz : Bool) (vs : List Word) :
    (decoderElements W dz vs).length = vs.length := by
  cases dz <;> simp [decoderElements]

@[simp] theorem decoderCodes_length (rc : List Byte → Nat → BitVec 2) (s : State) :
    (decoderCodes rc s).length = s.op.count.toNat := by simp [decoderCodes]

/-- Value i split from a data stream: the bytes after those of the values before it. -/
theorem splitValues_getElem (cs : List (BitVec 2)) (bs : List Byte) (i : Nat)
    (h : i < (splitValues cs bs).length) :
    (splitValues cs bs)[i] = BitVec.ofNat 32 (leNat
      ((bs.drop (((cs.take i).map codeLen).sum)).take
        (codeLen (cs[i]'(by simpa using h))))) := by
  induction cs generalizing bs i with
  | nil => simp [splitValues] at h
  | cons c cs ih =>
    cases i with
    | zero => simp [splitValues]
    | succ i =>
      simp only [splitValues, List.getElem_cons_succ, List.take_succ_cons, List.map_cons,
        List.sum_cons]
      rw [ih, List.drop_drop]

/-- Part of the bytes read from memory. -/
theorem readBytes_drop_take (m : Memory) (a n d k : Nat) (h : d + k ≤ n) :
    ((readBytes m a n).drop d).take k = readBytes m (a + d) k := by
  apply List.ext_getElem (by simp; omega)
  intro i h1 h2
  rw [List.getElem_take, List.getElem_drop, readBytes_getElem, readBytes_getElem, Nat.add_assoc]

end Sys2Proof.Machine
end

