-- ==== Sys2Proof/Laws/Commands.lean ====
section
/-! SUPPORT. Each command's shared operation, once: what it answers when its checks pass, and every
next state it can answer. -/

namespace Sys2Proof.Machine

/-! ## Completion -/

theorem complete_eq_completed (r u : Nat) (s : State) : complete r u s = completed 0#4 r u s := rfl

theorem raiseError_eq_completed (e : ErrorCause) (s : State) :
    raiseError e s = completed (errorCode e) 0 0 s := rfl

theorem errorCode_ne_zero (e : ErrorCause) : errorCode e ≠ 0#4 := by cases e <;> decide

theorem errorCode_le (e : ErrorCause) : (errorCode e).toNat ≤ 8 := by cases e <;> decide

/-! ## Encode -/

/-- An encode whose checks pass goes on to its memory accesses. -/
theorem encodeCommand_accepted (keys : List Word → List Byte) (w : BitVec 3) (dz : Bool)
    (s : State) (h : encodeAccepted w s.op) :
    encodeCommand keys w dz s =
      if !plainMemory s.platform (sourceOf s.op) || !plainMemory s.platform (destOf s.op) then
        .refused .regionNotPlainMemory
      else if !served s.platform (sourceOf s.op) then .fault .engineBusError
      else
        writeStream (s.op.srcLen.toNat / widthBytes w * widthBytes w)
          (encodedStream keys (encoderInput w dz s)) s := by
  obtain ⟨h1, h2, h3, h4⟩ := h
  rw [encodeCommand, (badInputSize_iff w s.op).mpr h1, (wraps_source_iff s.op).mpr h2,
    (wraps_dest_iff s.op).mpr h3,
    Bool.eq_false_iff.mpr fun h => h4 ((regionsMeet_operands_iff s.op).mp h)]
  rfl

/-- Every next state of an encode: an error, or the stream stored and a success. -/
theorem encodeCommand_next {keys : List Word → List Byte} {w : BitVec 3} {dz : Bool} {s t : State}
    (h : encodeCommand keys w dz s = .next t) :
    (∃ e, t = raiseError e s) ∨
    (encodeAccepted w s.op ∧
      (encodedStream keys (encoderInput w dz s)).length ≤ s.op.dstCap.toNat ∧
      t = complete (encodedStream keys (encoderInput w dz s)).length
        (s.op.srcLen.toNat / widthBytes w * widthBytes w)
        (storeBytes s.op.dstAddr.toNat (encodedStream keys (encoderInput w dz s)) s)) := by
  by_cases ha : encodeAccepted w s.op
  · rw [encodeCommand_accepted keys w dz s ha, writeStream] at h
    split at h
    · cases h
    · split at h
      · cases h
      · split at h
        · cases h; exact .inl ⟨_, rfl⟩
        · rename_i hc
          split at h
          · cases h
          · cases h
            exact .inr ⟨ha, by omega, rfl⟩
  · unfold encodeCommand at h
    split at h
    · cases h; exact .inl ⟨_, rfl⟩
    · rename_i h1
      split at h
      · cases h; exact .inl ⟨_, rfl⟩
      · rename_i h2
        split at h
        · cases h; exact .inl ⟨_, rfl⟩
        · rename_i h3
          rw [Bool.or_eq_true, not_or, Bool.not_eq_true, Bool.not_eq_true] at h2
          exact absurd ⟨(badInputSize_iff _ _).mp (Bool.not_eq_true _ ▸ h1),
            (wraps_source_iff _).mp h2.1, (wraps_dest_iff _).mp h2.2,
            fun hs => h3 ((regionsMeet_operands_iff _).mpr hs)⟩ ha

/-! ## Decode -/

/-- A decode whose checks pass goes on to its memory accesses. -/
theorem decodeCommand_accepted (rc : List Byte → Nat → BitVec 2) (w : BitVec 3) (dz : Bool)
    (s : State) (h : decodeAccepted w s.op) :
    decodeCommand rc w dz s =
      if !plainMemory s.platform (sourceOf s.op) || !plainMemory s.platform (destOf s.op) then
        .refused .regionNotPlainMemory
      else if !served s.platform ⟨s.op.srcAddr.toNat, keybytes s.op.count.toNat⟩ then
        .fault .engineBusError
      else readStream w dz (decoderCodes rc s) s := by
  obtain ⟨h1, h2, h3, h4, h5, h6⟩ := h
  rw [decodeCommand, (legalWidth_iff w).mpr h1, (wraps_source_iff s.op).mpr h2,
    (wraps_dest_iff s.op).mpr h3,
    Bool.eq_false_iff.mpr fun h => h4 ((regionsMeet_operands_iff s.op).mp h),
    if_neg (show ¬ ((!true) = true) by simp), if_neg (show ¬ ((false || false) = true) by simp),
    if_neg (show ¬ (false = true) by simp), if_neg (by unfold widthBytes; omega),
    if_neg (by omega)]

/-- The elements a decode writes. -/
abbrev decodedElements (w : BitVec 3) (dz : Bool) (codes : List (BitVec 2)) (s : State) :
    List (BitVec (8 * widthBytes w)) :=
  decoderElements (widthBytes w) dz (splitValues codes
    (readBytes s.mem (s.op.srcAddr.toNat + keybytes s.op.count.toNat) (dataLength codes)))

/-- Every next state of a decode: an error, or the elements stored and a success. -/
theorem decodeCommand_next {rc : List Byte → Nat → BitVec 2} {w : BitVec 3} {dz : Bool}
    {s t : State} (h : decodeCommand rc w dz s = .next t) :
    (∃ e, t = raiseError e s) ∨
    (decodeAccepted w s.op ∧
      keybytes s.op.count.toNat + dataLength (decoderCodes rc s) ≤ s.op.srcLen.toNat ∧
      t = complete (widthBytes w * s.op.count.toNat)
        (keybytes s.op.count.toNat + dataLength (decoderCodes rc s))
        (storeBytes s.op.dstAddr.toNat
          (elementBytes (widthBytes w) (decodedElements w dz (decoderCodes rc s) s)) s)) := by
  by_cases ha : decodeAccepted w s.op
  · rw [decodeCommand_accepted rc w dz s ha, readStream] at h
    split at h
    · cases h
    · split at h
      · cases h
      · simp only at h
        split at h
        · cases h; exact .inl ⟨_, rfl⟩
        · rename_i hc
          split at h
          · cases h
          · cases h
            exact .inr ⟨ha, by omega, rfl⟩
  · unfold decodeCommand at h
    split at h
    · cases h; exact .inl ⟨_, rfl⟩
    · rename_i h1
      split at h
      · cases h; exact .inl ⟨_, rfl⟩
      · rename_i h2
        split at h
        · cases h; exact .inl ⟨_, rfl⟩
        · rename_i h3
          split at h
          · cases h; exact .inl ⟨_, rfl⟩
          · rename_i h4
            split at h
            · cases h; exact .inl ⟨_, rfl⟩
            · rename_i h5
              rw [Bool.or_eq_true, not_or, Bool.not_eq_true, Bool.not_eq_true] at h2
              rw [Bool.not_eq_true, Bool.not_eq_false'] at h1
              exact absurd ⟨(legalWidth_iff _).mp h1, (wraps_source_iff _).mp h2.1,
                (wraps_dest_iff _).mp h2.2, fun hs => h3 ((regionsMeet_operands_iff _).mpr hs),
                by unfold widthBytes at h4; omega, by omega⟩ ha

/-! ## In-place transforms -/

/-- The elements an in-place transform reads. -/
abbrev sourceElements (w : BitVec 3) (s : State) : List (BitVec (8 * widthBytes w)) :=
  readElements s.mem (widthBytes w) s.op.srcAddr.toNat (s.op.srcLen.toNat / widthBytes w)

/-- An in-place transform whose checks pass goes on to its memory accesses. -/
theorem transformCommand_accepted (f : (n : Nat) → List (BitVec n) → List (BitVec n))
    (w : BitVec 3) (s : State) (h : transformAccepted w s.op) :
    transformCommand f w s =
      if !plainMemory s.platform (sourceOf s.op) then .refused .regionNotPlainMemory
      else if !served s.platform (sourceOf s.op) then .fault .engineBusError
      else .next (complete s.op.srcLen.toNat s.op.srcLen.toNat (storeBytes s.op.srcAddr.toNat
        (elementBytes (widthBytes w) (f _ (sourceElements w s))) s)) := by
  rw [transformCommand, (badInputSize_iff w s.op).mpr h.1, (wraps_source_iff s.op).mpr h.2]
  rfl

/-- Every next state of an in-place transform: an error, or the elements stored and a success. -/
theorem transformCommand_next {f : (n : Nat) → List (BitVec n) → List (BitVec n)} {w : BitVec 3}
    {s t : State} (h : transformCommand f w s = .next t) :
    (∃ e, t = raiseError e s) ∨
    (transformAccepted w s.op ∧
      t = complete s.op.srcLen.toNat s.op.srcLen.toNat (storeBytes s.op.srcAddr.toNat
        (elementBytes (widthBytes w) (f _ (sourceElements w s))) s)) := by
  by_cases ha : transformAccepted w s.op
  · rw [transformCommand_accepted f w s ha] at h
    split at h
    · cases h
    · split at h
      · cases h
      · cases h; exact .inr ⟨ha, rfl⟩
  · unfold transformCommand at h
    split at h
    · cases h; exact .inl ⟨_, rfl⟩
    · rename_i h1
      split at h
      · cases h; exact .inl ⟨_, rfl⟩
      · rename_i h2
        exact absurd ⟨(badInputSize_iff _ _).mp (Bool.not_eq_true _ ▸ h1),
          (wraps_source_iff _).mp (Bool.not_eq_true _ ▸ h2)⟩ ha

/-- The length of what an in-place transform stores is SRC_LEN. -/
theorem transform_stored_length (w : BitVec 3) (s : State) (h : sizeAccepted w s.op)
    (xs : List (BitVec (8 * widthBytes w))) (hx : xs.length = s.op.srcLen.toNat / widthBytes w) :
    (elementBytes (widthBytes w) xs).length = s.op.srcLen.toNat := by
  rw [elementBytes_length, hx]
  exact Nat.mul_div_cancel' (Nat.dvd_of_mod_eq_zero h.2)

/-! ## Bound -/

/-- Every next state of a bound: an error, or the bound. -/
theorem execBound_next {w : BitVec 3} {s t : State} (h : execBound w s = .next t) :
    (∃ e, t = raiseError e s) ∨
    (widthLegal w ∧ sizeBound (boundCount w s.op) ≤ 2 ^ 32 - 1 ∧
      t = complete (sizeBound (boundCount w s.op)) 0 s) := by
  unfold execBound at h
  split at h
  · cases h; exact .inl ⟨_, rfl⟩
  · rename_i h1
    split at h
    · cases h; exact .inl ⟨_, rfl⟩
    · cases h
      rw [Bool.not_eq_true, Bool.not_eq_false'] at h1
      exact .inr ⟨(legalWidth_iff w).mp h1, by omega, rfl⟩

/-! ## Every command -/

/-- Every next state of every command: an error, or bytes stored inside the address space and a
success. -/
theorem exec_next {i : Instr} {s t : State} (h : exec i s = .next t) :
    (∃ e, t = raiseError e s) ∨
    (∃ a bs r u, a + bs.length ≤ Config.addressSpace ∧ t = complete r u (storeBytes a bs s)) := by
  have enc : ∀ keys w dz, encodeCommand keys w dz s = .next t → (∃ e, t = raiseError e s) ∨
      (∃ a bs r u, a + bs.length ≤ Config.addressSpace ∧
        t = complete r u (storeBytes a bs s)) := by
    intro keys w dz h
    rcases encodeCommand_next h with h | ⟨ha, hn, h⟩
    · exact .inl h
    · have := ha.2.2.1
      exact .inr ⟨_, _, _, _, by unfold Config.addressSpace; omega, h⟩
  have dec : ∀ rc w dz, decodeCommand rc w dz s = .next t → (∃ e, t = raiseError e s) ∨
      (∃ a bs r u, a + bs.length ≤ Config.addressSpace ∧
        t = complete r u (storeBytes a bs s)) := by
    intro rc w dz h
    rcases decodeCommand_next h with h | ⟨ha, hn, h⟩
    · exact .inl h
    · refine .inr ⟨_, _, _, _, ?_, h⟩
      have h1 := ha.2.2.1
      have h2 := ha.2.2.2.2.1
      rw [elementBytes_length, decodedElements, decoderElements_length, splitValues_length,
        decoderCodes_length]
      unfold widthBytes Config.addressSpace
      omega
  have tr : ∀ (f : (n : Nat) → List (BitVec n) → List (BitVec n)) w,
      (∀ n xs, (f n xs).length = xs.length) → transformCommand f w s = .next t →
      (∃ e, t = raiseError e s) ∨
      (∃ a bs r u, a + bs.length ≤ Config.addressSpace ∧
        t = complete r u (storeBytes a bs s)) := by
    intro f w hf h
    rcases transformCommand_next h with h | ⟨ha, h⟩
    · exact .inl h
    · refine .inr ⟨_, _, _, _, ?_, h⟩
      have h1 := ha.2
      rw [transform_stored_length w s ha.1 _ (by rw [hf]; simp [sourceElements])]
      unfold Config.addressSpace
      omega
  cases i with
  | nop => cases h; exact .inr ⟨0, [], 0, 0, by decide, rfl⟩
  | encV0 w dz => exact enc _ w dz h
  | encV1 w dz => exact enc _ w dz h
  | decV0 w dz => exact dec _ w dz h
  | decV1 w dz => exact dec _ w dz h
  | bound w =>
    rcases execBound_next h with h | ⟨-, -, h⟩
    · exact .inl h
    · exact .inr ⟨0, [], _, _, by decide, h⟩
  | dzf w => exact tr _ w (fun n xs => forwardTransform_length xs) h
  | dzi w => exact tr _ w (fun n xs => inverseTransform_length xs) h
  | encUnknown ver w dz =>
    simp only [exec, execEncUnknown] at h
    split at h <;> cases h <;> exact .inl ⟨_, rfl⟩
  | decUnknown ver w dz =>
    simp only [exec, execDecUnknown] at h
    split at h <;> cases h <;> exact .inl ⟨_, rfl⟩

end Sys2Proof.Machine
end

