-- ==== Sys2Proof/Laws/PerInstr.lean ====
section
/-! SUPPORT. A family of statements made once per command: its word matches its row of
spec/opcode_table.json. -/

namespace Sys2Proof.Laws

/-- The match value of a command's row. -/
def rowMatch : Instr → Word
  | .nop => 0x00000000#32
  | .encV0 _ _ => 0x00000001#32
  | .encV1 _ _ => 0x00000011#32
  | .decV0 _ _ => 0x00000002#32
  | .decV1 _ _ => 0x00000012#32
  | .bound _ => 0x00000003#32
  | .dzf _ => 0x00000004#32
  | .dzi _ => 0x00000005#32
  | .encUnknown _ _ _ => 0x00000001#32
  | .decUnknown _ _ _ => 0x00000002#32

/-- The mask of a command's row. -/
def rowMask : Instr → Word
  | .nop => 0xFFFFFFFF#32
  | .encV0 _ _ => 0xFFFFF0FF#32
  | .encV1 _ _ => 0xFFFFF0FF#32
  | .decV0 _ _ => 0xFFFFF0FF#32
  | .decV1 _ _ => 0xFFFFF0FF#32
  | .bound _ => 0xFFFFF8FF#32
  | .dzf _ => 0xFFFFF8FF#32
  | .dzi _ => 0xFFFFF8FF#32
  | .encUnknown _ _ _ => 0xFFFFF00F#32
  | .decUnknown _ _ _ => 0xFFFFF00F#32

namespace EncodesItsRow

/-- Under its row's mask the command's word is its row's match value. -/
def Statement (i : Instr) : Prop := wellFormed i = true → encode i &&& rowMask i = rowMatch i

theorem nop : Statement .nop := by unfold Statement; decide

theorem encV0 (w : BitVec 3) (dz : Bool) : Statement (.encV0 w dz) := by
  unfold Statement; revert w dz; decide

theorem encV1 (w : BitVec 3) (dz : Bool) : Statement (.encV1 w dz) := by
  unfold Statement; revert w dz; decide

theorem decV0 (w : BitVec 3) (dz : Bool) : Statement (.decV0 w dz) := by
  unfold Statement; revert w dz; decide

theorem decV1 (w : BitVec 3) (dz : Bool) : Statement (.decV1 w dz) := by
  unfold Statement; revert w dz; decide

theorem bound (w : BitVec 3) : Statement (.bound w) := by
  unfold Statement; revert w; decide

theorem dzf (w : BitVec 3) : Statement (.dzf w) := by
  unfold Statement; revert w; decide

theorem dzi (w : BitVec 3) : Statement (.dzi w) := by
  unfold Statement; revert w; decide

theorem encUnknown (ver : BitVec 4) (w : BitVec 3) (dz : Bool) :
    Statement (.encUnknown ver w dz) := by
  unfold Statement; revert ver w dz; decide +kernel

theorem decUnknown (ver : BitVec 4) (w : BitVec 3) (dz : Bool) :
    Statement (.decUnknown ver w dz) := by
  unfold Statement; revert ver w dz; decide +kernel

end EncodesItsRow

end Sys2Proof.Laws
end

