-- ==== Sys2Proof/Laws/Step.lean ====
section
/-! SUPPORT. The step, the turns of the two agents and the host's accesses, once: every next state
each can answer. -/

namespace Sys2Proof.Machine

/-! ## Register writes -/

/-- Every state a register write can leave. -/
inductive WriteEffect (v : Word) (s : State) : Nat → State → Prop where
  | ignored (offset : Nat) : WriteEffect v s offset s
  | reset : v.getLsbD 1 = true → WriteEffect v s 0x004 (resetBlock s)
  | enable : v.getLsbD 1 = false → WriteEffect v s 0x004 { s with ie := v.getLsbD 0 }
  | acknowledge : WriteEffect v s 0x008 (acknowledge v s)
  | overrun : s.status.busy = true →
      WriteEffect v s 0x00C { s with status := overrunStatus s.status }
  | accept : s.status.busy = false → WriteEffect v s 0x00C (acceptCommand v s)
  | operand (offset : Nat) (r : Operands) : WriteEffect v s offset { s with regs := r }

theorem writeOffset_effect (offset : Nat) (v : Word) (s : State) :
    WriteEffect v s offset (writeOffset offset v s) := by
  unfold writeOffset
  split
  · rename_i r hr
    have h : (r = .ctrl → offset = 0x004) ∧ (r = .status → offset = 0x008) ∧
        (r = .cmd → offset = 0x00C) := by
      unfold regAt at hr
      repeat' split at hr
      all_goals first | (cases hr; simp_all) | cases hr
    cases r with
    | ctrl =>
      obtain rfl := h.1 rfl
      simp only [writeReg, writeCtrl]
      split
      · rename_i hv; exact .reset hv
      · rename_i hv; exact .enable (Bool.not_eq_true _ ▸ hv)
    | status => obtain rfl := h.2.1 rfl; exact .acknowledge
    | cmd =>
      obtain rfl := h.2.2 rfl
      simp only [writeReg, writeCmd]
      split
      · rename_i hv; exact .overrun hv
      · rename_i hv; exact .accept (Bool.not_eq_true _ ▸ hv)
    | id => exact .ignored _
    | result => exact .ignored _
    | inUsed => exact .ignored _
    | srcAddr => exact .operand _ _
    | srcLen => exact .operand _ _
    | dstAddr => exact .operand _ _
    | dstCap => exact .operand _ _
    | count => exact .operand _ _
  · exact .ignored _

/-- A CMD write while idle is refused exactly when the launch it would make is not on plain
memory. -/
theorem launchRefused_idle (v : Word) (s : State) (h : s.status.busy = false) :
    launchRefused 0x00C v s = !declaredPlain (acceptCommand v s) := by
  simp [launchRefused, regAt, h]

/-- No write while a command is active is a launch. -/
theorem launchRefused_busy (offset : Nat) (v : Word) (s : State) (h : s.status.busy = true) :
    launchRefused offset v s = false := by simp [launchRefused, h]

/-- No write to another register is a launch. -/
theorem launchRefused_other (offset : Nat) (v : Word) (s : State) (h : offset ≠ 0x00C) :
    launchRefused offset v s = false := by
  have hr : regAt offset ≠ some .cmd := by
    unfold regAt
    repeat' split
    all_goals simp_all
  simp [launchRefused, hr]

/-- A register write of a form that is not served. -/
theorem hostRegWrite_form (offset size : Nat) (v : Word) (s : State)
    (h : ¬ (size = 4 ∧ offset % 4 = 0 ∧ offset < Config.windowSize)) :
    hostRegWrite offset size v s = .refused .registerAccessForm := by
  have hf : registerAccessServed offset size = false := decide_eq_false h
  rw [hostRegWrite, hf]
  rfl

/-- A served register write: refused as a launch, or done. -/
theorem hostRegWrite_served (offset : Nat) (v : Word) (s : State) (h4 : offset % 4 = 0)
    (hw : offset < Config.windowSize) :
    hostRegWrite offset 4 v s =
      if launchRefused offset v s then .refused .regionNotPlainMemory
      else .next (writeOffset offset v s) := by
  have hf : registerAccessServed offset 4 = true := decide_eq_true ⟨rfl, h4, hw⟩
  rw [hostRegWrite, hf]
  rfl

/-- A served write to any register but CMD is done. -/
theorem hostRegWrite_other (offset : Nat) (v : Word) (s : State) (h4 : offset % 4 = 0)
    (hw : offset < Config.windowSize) (h : offset ≠ 0x00C) :
    hostRegWrite offset 4 v s = .next (writeOffset offset v s) := by
  rw [hostRegWrite_served offset v s h4 hw, launchRefused_other offset v s h]
  rfl

/-! ## Host accesses -/

/-- Every next state of a host access. -/
inductive HostEffect (s : State) : HostAccess → State → Prop where
  | regRead (offset : Nat) (v : Word) : HostEffect s (.regRead offset 4) { s with reply := .reg v }
  | regWrite (offset : Nat) (v : Word) (t : State) : WriteEffect v s offset t →
      launchRefused offset v s = false → HostEffect s (.regWrite offset 4 v) t
  | memRead (addr : Word) (n : Nat) (bs : List Byte) (d : Nat) :
      HostEffect s (.memRead addr n) { s with reply := .mem bs, draws := d }
  | memWrite (addr : Word) (bs : List Byte) : addr.toNat + bs.length ≤ Config.addressSpace →
      regionsMeet ⟨addr.toNat, bs.length⟩ (activeSource s) = false →
      regionsMeet ⟨addr.toNat, bs.length⟩ (activeWrite s) = false →
      HostEffect s (.memWrite addr bs) (storeBytes addr.toNat bs s)

theorem hostAccess_effect {a : HostAccess} {s t : State} (h : hostAccess a s = .next t) :
    HostEffect s a t := by
  cases a with
  | regRead offset size =>
    simp only [hostAccess, hostRegRead, registerAccessServed, decide_eq_true_eq] at h
    split at h
    · rename_i hv; cases h; obtain ⟨rfl, -, -⟩ := hv; exact .regRead _ _
    · cases h
  | regWrite offset size v =>
    simp only [hostAccess, hostRegWrite] at h
    cases hv : registerAccessServed offset size with
    | false => rw [hv] at h; cases h
    | true =>
      cases hr : launchRefused offset v s with
      | true => rw [hv, hr] at h; cases h
      | false =>
        rw [hv, hr] at h
        cases h
        obtain ⟨rfl, -, -⟩ := of_decide_eq_true hv
        exact .regWrite _ _ _ (writeOffset_effect _ _ _) hr
  | memRead addr n =>
    simp only [hostAccess, hostMemRead] at h
    repeat' split at h
    all_goals first | (cases h; exact .memRead _ _ _ _) | cases h
  | memWrite addr bs =>
    simp only [hostAccess, hostMemWrite] at h
    split at h
    · cases h
    · rename_i h1
      split at h
      · cases h
      · rename_i h2
        split at h
        · cases h
        · split at h
          · cases h
          · cases h
            rw [Bool.or_eq_true, not_or, Bool.not_eq_true, Bool.not_eq_true] at h1
            refine .memWrite _ _ ?_ h1.1 h1.2
            simpa [wraps, regionOk] using h2

/-! ## The engine's turn and the step -/

/-- Every next state of the engine's turn. -/
theorem engineTurn_next {s t : State} (h : engineTurn s = .next t) :
    (s.status.busy = false ∧ t = s) ∨
    (s.status.busy = true ∧ ∃ i, decode s.cmd = .ok i ∧ exec i s = .next t) ∨
    (s.status.busy = true ∧ ∃ e, decode s.cmd = .error e ∧ t = raiseError .illegalCommand s) := by
  unfold engineTurn fetch at h
  split at h
  · rename_i hb
    split at h
    · rename_i i hi; exact .inr (.inl ⟨hb, i, hi, h⟩)
    · rename_i e he; cases h; exact .inr (.inr ⟨hb, e, he, rfl⟩)
  · rename_i hb; cases h; exact .inl ⟨Bool.not_eq_true _ ▸ hb, rfl⟩

/-- Whose turn the next step is. -/
theorem step_turn (s : State) :
    (s.inputs = [] ∧ step s = engineTurn s) ∨
    (∃ rest, s.inputs = engineSlot :: rest ∧ step s = engineTurn { s with inputs := rest }) ∨
    (∃ a rest, s.inputs = ⟨false, some a⟩ :: rest ∧
      step s = hostAccess a { s with inputs := rest }) ∨
    (∃ a rest, s.inputs = ⟨true, a⟩ :: rest ∧
      step s = .next (resetBlock { s with inputs := rest })) := by
  unfold step
  split
  · rename_i h; exact .inl ⟨h, rfl⟩
  · rename_i slot rest h
    obtain ⟨r, a⟩ := slot
    cases r with
    | true => exact .inr (.inr (.inr ⟨a, rest, h, rfl⟩))
    | false =>
      cases a with
      | none => exact .inr (.inl ⟨rest, h, rfl⟩)
      | some a => exact .inr (.inr (.inl ⟨a, rest, h, rfl⟩))

/-- Every next state of a step, `u` being the state with the used slot taken off. -/
theorem step_next {s t : State} (h : step s = .next t) :
    ∃ u rest, u = { s with inputs := rest } ∧
      (((s.inputs = [] ∧ rest = [] ∨ s.inputs = engineSlot :: rest) ∧ engineTurn u = .next t) ∨
       (∃ a, s.inputs = ⟨false, some a⟩ :: rest ∧ HostEffect u a t) ∨
       (∃ a, s.inputs = ⟨true, a⟩ :: rest ∧ t = resetBlock u)) := by
  rcases step_turn s with ⟨hi, he⟩ | ⟨rest, hi, he⟩ | ⟨a, rest, hi, he⟩ | ⟨a, rest, hi, he⟩
  · refine ⟨s, [], by rw [← hi], .inl ⟨.inl ⟨hi, rfl⟩, by rw [← he, h]⟩⟩
  · exact ⟨_, rest, rfl, .inl ⟨.inr hi, by rw [← he, h]⟩⟩
  · exact ⟨_, rest, rfl, .inr (.inl ⟨a, hi, hostAccess_effect (by rw [← he, h])⟩)⟩
  · refine ⟨_, rest, rfl, .inr (.inr ⟨a, hi, ?_⟩)⟩
    rw [h] at he
    cases he
    rfl

/-! ## Aborted memory -/

@[simp] theorem freeBytes_length (d n : Nat) : (freeBytes d n).length = n := by simp [freeBytes]

theorem abortedMemory_idle (s : State) (h : s.status.busy = false) : abortedMemory s = s.mem := by
  have hc : abortedCount s = 0 := by
    simp [abortedCount, existingSize, activeWrite, activeRegion, h, noRegion]
  rw [abortedMemory, hc]
  rfl

end Sys2Proof.Machine
end

