-- ==== Sys2Proof/Tests/Slice0.lean ====
section
/-! SUPPORT. The model's own tests: vectors of 95_test_vectors.md (named by their ids there) and
words written out from 30_encoding.md; and, for each statement with hypotheses, a `witness_` theorem
that meets them, at the ends of the ranges of its clauses. -/

namespace Sys2Proof.Tests

open Sys2Proof.Machine

/-! ## Helpers -/

/-- A platform with its register window at 0xFFFFF000 and all data memory served and plain. -/
def plainPlatform : Platform := ⟨0xFFFFF#20, [], []⟩

/-- An engine with the given memory image and latched operands. -/
def engine (a : Nat) (bytes : List Byte) (op : Operands) : State :=
  { State.reset with platform := plainPlatform, mem := writeBytes [] a bytes, op := op }

/-- The operands of 95_test_vectors.md's encode and decode rows: source 0x1000, destination 0x2000. -/
def ops (srcLen dstCap count : Nat) : Operands :=
  ⟨0x1000#32, BitVec.ofNat 32 srcLen, 0x2000#32, BitVec.ofNat 32 dstCap, BitVec.ofNat 32 count⟩

/-- ERR, RESULT and IN_USED after a step, and the bytes at an address. -/
def outcome (r : StepResult) (a n : Nat) : Option (BitVec 4 × Nat × Nat × List Byte) :=
  match r with
  | .next t => some (t.status.err, t.result.toNat, t.inUsed.toNat, readBytes t.mem a n)
  | .fault _ => none
  | .refused _ => none

/-- Why a step stops. -/
def stopOf (r : StepResult) : Option (Fault ⊕ Refusal) :=
  match r with
  | .next _ => none
  | .fault f => some (.inl f)
  | .refused q => some (.inr q)

/-- The word a register reads after a step. -/
def readAfter (r : StepResult) (offset : Nat) : Option Word :=
  match r with
  | .next t => some (readOffset t offset)
  | .fault _ => none
  | .refused _ => none

/-- One register write, as the next step of a state. -/
def wr (offset : Nat) (v : Word) (s : State) : StepResult :=
  step { s with inputs := [⟨false, some (.regWrite offset 4 v)⟩] }

/-- The i32 elements 5, 4, 3, 2, 1 (95 L1-1). -/
def fiveDown : List Byte := [5, 0, 0, 0, 4, 0, 0, 0, 3, 0, 0, 0, 2, 0, 0, 0, 1, 0, 0, 0]

/-- The i16 elements -32768, -1, 0, 1, 32767 (95 L2-E10). -/
def extremes16 : List Byte := [0x00, 0x80, 0xFF, 0xFF, 0x00, 0x00, 0x01, 0x00, 0xFF, 0x7F]

/-! ## Well-formedness smoke: each check refuses an ill-formed term -/

theorem test_encUnknown_ver0_ill_formed : wellFormed (.encUnknown 0#4 4#3 false) = false := by decide
theorem test_encUnknown_ver1_ill_formed : wellFormed (.encUnknown 1#4 4#3 true) = false := by decide
theorem test_decUnknown_ver1_ill_formed : wellFormed (.decUnknown 1#4 2#3 false) = false := by decide
theorem test_decUnknown_ver2_well_formed : wellFormed (.decUnknown 2#4 2#3 false) = true := by decide

/-! ## Decoding: words written out field by field, RSV DZ W VER OP (R70, R76, R83) -/

theorem test_decode_nop : decode 0b00000000000000000000_0_000_0000_0000#32 = .ok .nop := by decide
theorem test_decode_encV0 :
    decode 0b00000000000000000000_1_100_0000_0001#32 = .ok (.encV0 4#3 true) := by decide
theorem test_decode_encV1 :
    decode 0b00000000000000000000_0_010_0001_0001#32 = .ok (.encV1 2#3 false) := by decide
theorem test_decode_decV0 :
    decode 0b00000000000000000000_1_001_0000_0010#32 = .ok (.decV0 1#3 true) := by decide
theorem test_decode_decV1 :
    decode 0b00000000000000000000_0_010_0001_0010#32 = .ok (.decV1 2#3 false) := by decide
theorem test_decode_bound :
    decode 0b00000000000000000000_0_100_0000_0011#32 = .ok (.bound 4#3) := by decide
theorem test_decode_dzf :
    decode 0b00000000000000000000_0_001_0000_0100#32 = .ok (.dzf 1#3) := by decide
theorem test_decode_dzi :
    decode 0b00000000000000000000_0_010_0000_0101#32 = .ok (.dzi 2#3) := by decide
theorem test_decode_encUnknown :
    decode 0b00000000000000000000_1_100_1111_0001#32 = .ok (.encUnknown 15#4 4#3 true) := by decide
theorem test_decode_decUnknown :
    decode 0b00000000000000000000_0_011_0010_0010#32 = .ok (.decUnknown 2#4 3#3 false) := by decide

/-- L2-X1 to L2-X10: the illegal words. -/
theorem test_decode_illegal :
    [0x6#32, 0xF#32, 0x1401#32, 0x80000000#32, 0x400#32, 0x10#32, 0x413#32, 0xC03#32, 0xC04#32,
      0x415#32].map decode =
    [.error .reservedOpcode, .error .reservedOpcode, .error .reservedBits, .error .reservedBits,
      .error .nopField, .error .nopField, .error .unusedField, .error .unusedField,
      .error .unusedField, .error .unusedField] := by decide

/-- The encoder's words (R83 examples). -/
theorem test_encode_examples :
    encode (.encV0 4#3 true) = 0x00000C01#32 ∧ encode (.decV1 2#3 false) = 0x00000212#32 := by
  decide

theorem test_decodeTableWord :
    decodeTableWord 32 0x104 = some (.dzf 1#3) ∧ decodeTableWord 32 0x6 = none := by decide

/-! ## Commands -/

/-- L2-N1. -/
theorem test_nop : outcome (exec .nop (engine 0 [] (ops 20 64 5))) 0 0 = some (0#4, 0, 0, []) := by
  decide +kernel

/-- L1-1. -/
theorem test_encV0_dz :
    outcome (exec (.encV0 4#3 true) (engine 0x1000 fiveDown (ops 20 64 0))) 0x2000 8
      = some (0#4, 7, 20, [0x00, 0x00, 0x0A, 0x01, 0x01, 0x01, 0x01, 0x00]) := by decide +kernel

/-- L2-E1: all four codes. -/
theorem test_encV0_codes :
    outcome (exec (.encV0 4#3 false)
      (engine 0x1000 [1, 0, 0, 0, 0, 1, 0, 0, 0, 0, 1, 0, 0, 0, 0, 1] (ops 16 64 0))) 0x2000 11
      = some (0#4, 11, 16, [0xE4, 1, 0, 1, 0, 0, 1, 0, 0, 0, 1]) := by decide +kernel

/-- P3: the 16-bit elements after svb.dzf, zero-extended, in V1. -/
theorem test_encV1_w2 :
    outcome (exec (.encV1 2#3 false) (engine 0x1000
      [0xFF, 0xFF, 0xFE, 0xFF, 0x02, 0x00, 0x02, 0x00, 0xFC, 0xFF] (ops 10 16 0))) 0x2000 10
      = some (0#4, 10, 10, [0x05, 0x01, 0xFF, 0xFF, 0xFE, 0xFF, 0x02, 0x02, 0xFC, 0xFF]) := by
  decide +kernel

/-- P3: one byte of capacity missing. -/
theorem test_encV1_destination_too_small :
    outcome (exec (.encV1 2#3 false) (engine 0x1000
      [0xFF, 0xFF, 0xFE, 0xFF, 0x02, 0x00, 0x02, 0x00, 0xFC, 0xFF] (ops 10 9 0))) 0x2000 2
      = some (6#4, 0, 0, [0, 0]) := by decide +kernel

/-- L2-D1, with the trailing byte of L2-D2. -/
theorem test_decV0_dz :
    outcome (exec (.decV0 4#3 true)
      (engine 0x1000 [0x00, 0x00, 0x0A, 0x01, 0x01, 0x01, 0x01, 0x99] (ops 8 20 5))) 0x2000 20
      = some (0#4, 20, 7, fiveDown) := by decide +kernel

/-- L2-D3. -/
theorem test_decV0_corrupted :
    outcome (exec (.decV0 4#3 true)
      (engine 0x1000 [0x00, 0x00, 0x0A, 0x01, 0x01, 0x01] (ops 6 20 5))) 0x2000 1
      = some (7#4, 0, 0, [0]) := by decide +kernel

/-- L2-D9: truncation. -/
theorem test_decV1_truncates :
    outcome (exec (.decV1 2#3 false) (engine 0x1000 [0x02, 0x45, 0x23, 0x01] (ops 4 2 1))) 0x2000 2
      = some (0#4, 2, 4, [0x45, 0x23]) := by decide +kernel

/-- L2-D12. -/
theorem test_decV1_dz :
    outcome (exec (.decV1 2#3 true) (engine 0x1000
      [0x05, 0x01, 0xFF, 0xFF, 0xFE, 0xFF, 0x02, 0x02, 0xFC, 0xFF] (ops 10 10 5))) 0x2000 10
      = some (0#4, 10, 10, extremes16) := by decide +kernel

/-- L2-B8 and L2-B3: the largest bound, and a width that does not divide. -/
theorem test_bound :
    outcome (exec (.bound 4#3) (engine 0 [] (ops 0xF0F0F0F0 0 0))) 0 0
        = some (0#4, 0xFFFFFFFF, 0, [])
      ∧ outcome (exec (.bound 4#3) (engine 0 [] (ops 5 0 0))) 0 0 = some (0#4, 9, 0, []) := by
  decide +kernel

/-- L2-B9 and L2-B11. -/
theorem test_bound_errors :
    outcome (exec (.bound 4#3) (engine 0 [] (ops 0xF0F0F0F1 0 0))) 0 0 = some (8#4, 0, 0, [])
      ∧ outcome (exec (.bound 3#3) (engine 0 [] (ops 20 0 0))) 0 0 = some (2#4, 0, 0, []) := by
  decide +kernel

/-- L2-T1. -/
theorem test_dzf_w1 :
    outcome (exec (.dzf 1#3) (engine 0x1000 [0x80, 0xFF, 0x00, 0x01, 0x7F] (ops 5 0 0))) 0x1000 6
      = some (0#4, 5, 5, [0xFF, 0xFE, 0x02, 0x02, 0xFC, 0x00]) := by decide +kernel

/-- L2-T9 and L2-T10's error order. -/
theorem test_dzf_errors :
    outcome (exec (.dzf 4#3) (engine 0x1000 [1, 2, 3, 4, 5, 6] (ops 6 0 0))) 0x1000 6
        = some (2#4, 0, 0, [1, 2, 3, 4, 5, 6])
      ∧ outcome (exec (.dzf 1#3)
          (engine 0 [] ⟨0xFFFFFFFF#32, 2#32, 0#32, 0#32, 0#32⟩)) 0 0 = some (4#4, 0, 0, []) := by
  decide +kernel

/-- L2-T4. -/
theorem test_dzi_w2 :
    outcome (exec (.dzi 2#3) (engine 0x1000
      [0xFF, 0xFF, 0xFE, 0xFF, 0x02, 0x00, 0x02, 0x00, 0xFC, 0xFF] (ops 10 0 0))) 0x1000 10
      = some (0#4, 10, 10, extremes16) := by decide +kernel

/-- L2-X15 and L2-X17. -/
theorem test_encUnknown :
    outcome (exec (.encUnknown 2#4 4#3 false) (engine 0 [] (ops 20 64 5))) 0 0
        = some (3#4, 0, 0, [])
      ∧ outcome (exec (.encUnknown 2#4 3#3 false) (engine 0 [] (ops 20 64 5))) 0 0
        = some (2#4, 0, 0, []) := by decide +kernel

/-- L2-X18. -/
theorem test_decUnknown :
    outcome (exec (.decUnknown 2#4 4#3 false) (engine 0 [] (ops 7 20 0))) 0 0
      = some (3#4, 0, 0, []) := by decide +kernel

/-- L2-X20, L2-X22 and L2-X23: a wrapping region, an overlap, and adjacent regions. -/
theorem test_encode_region_errors :
    outcome (exec (.encV0 4#3 false)
        (engine 0 [] ⟨0xFFFFFFF0#32, 0x20#32, 0x2000#32, 64#32, 0#32⟩)) 0 0 = some (4#4, 0, 0, [])
      ∧ outcome (exec (.encV0 4#3 false)
        (engine 0 [] ⟨0x1000#32, 20#32, 0x1010#32, 16#32, 0#32⟩)) 0 0 = some (5#4, 0, 0, [])
      ∧ outcome (exec (.encV0 4#3 false)
        (engine 0 [] ⟨0x1000#32, 20#32, 0x1014#32, 16#32, 0#32⟩)) 0 0 = some (0#4, 7, 20, []) := by
  decide +kernel

/-! ## Stops -/

/-- R67 and R58: an unserved source, and a destination on a device. -/
theorem test_engine_stops :
    stopOf (exec (.dzf 1#3)
        { engine 0 [] (ops 5 0 0) with platform := ⟨0#20, [⟨0x1004, 1⟩], []⟩ })
        = some (.inl .engineBusError)
      ∧ stopOf (exec (.encV0 1#3 false)
          { engine 0 [] (ops 5 64 0) with platform := ⟨0#20, [], [⟨0x203F, 1⟩]⟩ })
        = some (.inr .regionNotPlainMemory) := by decide +kernel

/-! ## The register port, reset and the interrupt -/

/-- L2-R4 and L2-R3. -/
theorem test_ctrl_id_writes :
    readAfter (wr 0x004 0xFFFFFFFD#32 State.reset) 0x004 = some 1#32
      ∧ readAfter (wr 0x000 0x12345678#32 State.reset) 0x000 = some 0x53564231#32 := by
  decide +kernel

/-- L2-R5, L2-R6 and L2-R7. -/
theorem test_status_w1c :
    readAfter (wr 0x008 2#32 { State.reset with status := ⟨false, true, false, 3#4⟩ }) 0x008
        = some 0x300#32
      ∧ readAfter (wr 0x008 4#32 { State.reset with status := ⟨false, true, true, 0#4⟩ }) 0x008
        = some 2#32
      ∧ readAfter
          (wr 0x008 0xFFFFFFF9#32 { State.reset with status := ⟨false, true, true, 0#4⟩ }) 0x008
        = some 6#32 := by decide +kernel

/-- L2-R8 and L2-R13: a CMD write while busy, and an acceptance. -/
theorem test_cmd_write :
    readAfter (wr 0x00C 0#32 { State.reset with status := ⟨true, false, false, 0#4⟩ }) 0x008
        = some 5#32
      ∧ readAfter (wr 0x00C 0#32 { State.reset with status := ⟨false, true, true, 6#4⟩ }) 0x008
        = some 5#32 := by decide +kernel

/-- L2-R11: a soft reset wins over IE in the same write. -/
theorem test_soft_reset :
    readAfter (wr 0x004 3#32
        { State.reset with ie := true, status := ⟨false, true, false, 0#4⟩, cmd := 5#32 }) 0x004
      = some 0#32 := by decide +kernel

/-- R39: a byte access is refused. -/
theorem test_register_access_form :
    stopOf (step { State.reset with inputs := [⟨false, some (.regRead 8 1)⟩] })
      = some (.inr .registerAccessForm) := by decide +kernel

/-- HZ1 (R208): a host write into the source of an active command. -/
theorem test_host_write_hazard :
    stopOf (step { engine 0 [] (ops 5 0 0) with
        status := ⟨true, false, false, 0#4⟩
        cmd := 0x104#32
        inputs := [⟨false, some (.memWrite 0x1004#32 [1#8])⟩] })
      = some (.inl .hostWritesActiveRegion) := by decide +kernel

/-- A word placed by withFetchWord is the first command run after reset. -/
theorem test_first_command_after_reset :
    [0x0, 0xC01, 0x411, 0x402, 0x212, 0x403, 0x104, 0x205, 0x421, 0x422, 0x6].map
        (fun w => outcome (step (State.reset.withFetchWord 32 w)) 0 0) =
      [some (0#4, 0, 0, []), some (0#4, 0, 0, []), some (0#4, 0, 0, []), some (0#4, 0, 0, []),
        some (0#4, 0, 0, []), some (0#4, 0, 0, []), some (0#4, 0, 0, []), some (0#4, 0, 0, []),
        some (3#4, 0, 0, []), some (3#4, 0, 0, []), some (1#4, 0, 0, [])] := by decide +kernel

/-! ## Witnesses: helpers -/

/-- A next state with a property. -/
def after (r : StepResult) (p : State → Bool) : Bool :=
  match r with
  | .next t => p t
  | .fault _ => false
  | .refused _ => false

theorem next_of_after {r : StepResult} {P : State → Prop} [DecidablePred P]
    (h : after r (fun t => decide (P t)) = true) : ∃ t, r = .next t ∧ P t := by
  cases r with
  | next t => exact ⟨t, rfl, of_decide_eq_true h⟩
  | fault _ => cases h
  | refused _ => cases h

/-- An active engine: `s` with a command word accepted. -/
def active (w : Word) (s : State) : State :=
  { s with cmd := w, status := ⟨true, false, false, 0#4⟩ }

/-- `s` with a host access next. -/
def withHost (a : HostAccess) (s : State) : State := { s with inputs := [hostSlot a] }

/-- The stream of 95 L2-D1 at 0x1000. -/
def streamState (srcLen dstCap count : Nat) : State :=
  engine 0x1000 [0x00, 0x00, 0x0A, 0x01, 0x01, 0x01, 0x01] (ops srcLen dstCap count)

/-- The elements of 95 L1-1 at 0x1000, to be encoded in seven bytes. -/
def elementState (dstCap : Nat) : State := engine 0x1000 fiveDown (ops 20 dstCap 0)

/-- Five one-byte elements at 0x1000, to be transformed in place. -/
def bufferState : State := engine 0x1000 [0x80, 0xFF, 0x00, 0x01, 0x7F] (ops 5 0 0)

/-- A source of two bytes that runs one byte past the end of the address space. -/
def wrappingOps : Operands := ⟨0xFFFFFFFF#32, 2#32, 0#32, 0#32, 0#32⟩

/-- Regions that share the last byte of the source and nothing else. -/
def sharingOps : Operands := ⟨0x1000#32, 20#32, 0x1013#32, 1#32, 0#32⟩

/-! ## Witnesses: encoding and the engine's step -/

theorem witness_DecodeOfEncodeIsIdentity :
    wellFormed .nop = true ∧ wellFormed (.encUnknown 2#4 7#3 true) = true ∧
      wellFormed (.decUnknown 15#4 0#3 false) = true := by decide

theorem witness_EncodeOfDecodeIsIdentity :
    decode 0xFF2#32 = .ok (.decUnknown 15#4 7#3 true) ∧
      decode 0x705#32 = .ok (.dzi 7#3) := by decide

/-- The sum of R70's fields at their places. -/
def fieldSum (op ver : BitVec 4) (w : BitVec 3) (dz : Bool) (rsv : BitVec 20) : Nat :=
  op.toNat + 16 * ver.toNat + 256 * w.toNat + 2048 * dz.toNat + 4096 * rsv.toNat

/-- A word for each clause of DecodeFollowsFieldTable, in its order. -/
theorem witness_DecodeFollowsFieldTable :
    (0x1401#32 : Word).toNat = fieldSum 1#4 0#4 4#3 false 1#20 ∧
    (0#32 : Word).toNat = fieldSum 0#4 0#4 0#3 false 0#20 ∧
    (0x800#32 : Word).toNat = fieldSum 0#4 0#4 0#3 true 0#20 ∧
    (0xC01#32 : Word).toNat = fieldSum 1#4 0#4 4#3 true 0#20 ∧
    (0x211#32 : Word).toNat = fieldSum 1#4 1#4 2#3 false 0#20 ∧
    (0x421#32 : Word).toNat = fieldSum 1#4 2#4 4#3 false 0#20 ∧
    (0x402#32 : Word).toNat = fieldSum 2#4 0#4 4#3 false 0#20 ∧
    (0x212#32 : Word).toNat = fieldSum 2#4 1#4 2#3 false 0#20 ∧
    (0x4F2#32 : Word).toNat = fieldSum 2#4 15#4 4#3 false 0#20 ∧
    (0x403#32 : Word).toNat = fieldSum 3#4 0#4 4#3 false 0#20 ∧
    (0x104#32 : Word).toNat = fieldSum 4#4 0#4 1#3 false 0#20 ∧
    (0x205#32 : Word).toNat = fieldSum 5#4 0#4 2#3 false 0#20 ∧
    (0x415#32 : Word).toNat = fieldSum 5#4 1#4 4#3 false 0#20 ∧
    (6#32 : Word).toNat = fieldSum 6#4 0#4 0#3 false 0#20 := by
  decide

theorem witness_StepRunsDecodedCommand :
    (active 0x104#32 bufferState).status.busy = true ∧
      decode (active 0x104#32 bufferState).cmd = .ok (.dzf 1#3) ∧ wellFormed (.dzf 1#3) = true ∧
      (active 0x104#32 bufferState).inputs = [] := by decide

theorem witness_PlacedWordRunsNext :
    decodeTableWord 32 0xFF1 = some (.encUnknown 15#4 7#3 true) := by decide

theorem witness_IllegalWordCompletesWithError :
    (active 0x6#32 bufferState).status.busy = true ∧
      decode (active 0x6#32 bufferState).cmd = .error .reservedOpcode ∧
      (active 0x6#32 bufferState).inputs = [] := by decide

theorem witness_IdleEngineChangesNothing :
    bufferState.status.busy = false ∧ bufferState.inputs = [] := by decide

theorem witness_ActiveCommandAlwaysCompletes :
    (active 0xC01#32 (elementState 6)).status.busy = true ∧
      (active 0xC01#32 (elementState 6)).inputs = [] ∧
      onServedMemory plainPlatform (activeSource (active 0xC01#32 (elementState 6))) ∧
      onServedMemory plainPlatform (activeWrite (active 0xC01#32 (elementState 6))) := by
  decide +kernel

theorem witness_NopCompletes :
    (0x10#32 : Word) ≠ 0#32 ∧ (0x10#32 : Word).toNat % 16 = 0 := by decide

/-! ## Witnesses: commands -/

/-- DST_CAP is exactly the length of the stream. -/
theorem witness_EncodeWritesKeyAndDataStream :
    encodeReady 4#3 (elementState 7) ∧
      encodeLength (elementState 7).mem 0x1000 4 true (sourceCount 4#3 (elementState 7).op) = 7 ∧
      encodeLength (elementState 7).mem 0x1000 4 false (sourceCount 4#3 (elementState 7).op) = 7 ∧
      (elementState 7).op.dstCap.toNat = 7 := by decide +kernel

/-- The same at N = 0, with no capacity. -/
theorem witness_EncodeV1KeysAreBitString :
    encodeReady 1#3 (engine 0 [] (ops 0 0 0)) ∧
      encodeLength [] 0x1000 1 true (sourceCount 1#3 (ops 0 0 0)) ≤ (ops 0 0 0).dstCap.toNat := by
  decide +kernel

/-- One state for each clause, in order. -/
theorem witness_EncodeErrorsInOrder :
    (¬ sizeAccepted 4#3 (ops 21 64 0) ∧ ¬ sizeAccepted 3#3 (ops 21 64 0)) ∧
    (sizeAccepted 1#3 wrappingOps ∧ ¬ (sourceFits wrappingOps ∧ destFits wrappingOps)) ∧
    (sizeAccepted 4#3 sharingOps ∧ sourceFits sharingOps ∧ destFits sharingOps
      ∧ regionsShare sharingOps) ∧
    (encodeAccepted 4#3 (elementState 6).op ∧
      onServedMemory plainPlatform (sourceOf (elementState 6).op) ∧
      plainMemory plainPlatform (destOf (elementState 6).op) = true ∧
      6 < encodeLength (elementState 6).mem 0x1000 4 true 5) := by decide +kernel

/-- SRC_LEN is exactly the length of the stream and DST_CAP that of the elements. -/
theorem witness_DecodeWritesElements :
    decodeReady 4#3 (streamState 7 20 5) ∧ decodeOffset (streamState 7 20 5).mem 0x1000 5 5 = 7 ∧
      (streamState 7 20 5).op.srcLen.toNat = 7 := by decide +kernel

/-- One state for each clause, in order. -/
theorem witness_DecodeErrorsInOrder :
    (¬ widthLegal 0#3 ∧ ¬ widthLegal 3#3 ∧ ¬ widthLegal 7#3) ∧
    (widthLegal 1#3 ∧ ¬ (sourceFits wrappingOps ∧ destFits wrappingOps)) ∧
    (widthLegal 4#3 ∧ sourceFits sharingOps ∧ destFits sharingOps ∧ regionsShare sharingOps) ∧
    (widthLegal 4#3 ∧ sourceFits (ops 7 19 5) ∧ destFits (ops 7 19 5) ∧ ¬ regionsShare (ops 7 19 5)
      ∧ 19 < (4#3 : BitVec 3).toNat * 5) ∧
    (widthLegal 4#3 ∧ sourceFits (ops 1 20 5) ∧ destFits (ops 1 20 5) ∧ ¬ regionsShare (ops 1 20 5)
      ∧ (4#3 : BitVec 3).toNat * 5 ≤ 20 ∧ 1 < keybytes 5) ∧
    (decodeAccepted 4#3 (streamState 6 20 5).op ∧
      onServedMemory plainPlatform (sourceOf (streamState 6 20 5).op) ∧
      plainMemory plainPlatform (destOf (streamState 6 20 5).op) = true ∧
      6 < decodeOffset (streamState 6 20 5).mem 0x1000 5 5) := by decide +kernel

/-- For ForwardTransformInPlace, InverseTransformInPlace and TransformsUndoEachOther: a buffer, and
one that ends with the address space. -/
theorem witness_transformReady :
    transformReady 1#3 bufferState ∧
      transformReady 4#3 { State.reset with
        platform := ⟨0#20, [], []⟩, op := ⟨0xFFFFFFEC#32, 20#32, 0#32, 0#32, 0#32⟩ } := by
  decide +kernel

theorem witness_TransformErrorsInOrder :
    (¬ sizeAccepted 2#3 bufferState.op ∧ ¬ sizeAccepted 5#3 bufferState.op) ∧
      sizeAccepted 1#3 wrappingOps ∧ ¬ sourceFits wrappingOps := by decide

/-- The largest bound that fits, the next one, and a width that is not legal. -/
theorem witness_BoundResult :
    ¬ widthLegal 5#3 ∧
    (widthLegal 4#3 ∧ 0xF0F0F0F0 ≤ 1010580540 * 4 ∧ 1010580540 * 4 < 0xF0F0F0F0 + 4 ∧
      1010580540 ≤ 4 * (0xFFFFFFFF - 4 * 1010580540) ∧
      4 * (0xFFFFFFFF - 4 * 1010580540) < 1010580540 + 4 ∧ 4 * 1010580540 ≤ 0xFFFFFFFF) ∧
    (0xF0F0F0F1 ≤ 1010580541 * 4 ∧ 1010580541 * 4 < 0xF0F0F0F1 + 4 ∧
      1010580541 ≤ 4 * (0x100000004 - 4 * 1010580541) ∧
      4 * (0x100000004 - 4 * 1010580541) < 1010580541 + 4 ∧ 4 * 1010580541 ≤ 0x100000004) := by
  decide

theorem witness_BoundIsMonotone :
    ∃ t t', exec (.bound 4#3) (engine 0 [] (ops 4 0 0)) = .next t ∧
      exec (.bound 4#3) (engine 0 [] (ops 5 0 0)) = .next t' ∧
      t.status.err = 0#4 ∧ t'.status.err = 0#4 :=
  ⟨_, _, rfl, rfl, rfl, rfl⟩

/-- A success, and a capacity one byte short of the bound for a value of exactly 2^24. -/
theorem witness_EncodeStaysWithinBound :
    (∃ t, exec (.encV1 4#3 true) (elementState 7) = .next t ∧ t.status.err = 0#4) ∧
    encodeReady 4#3 (engine 0x1000 [0, 0, 0, 1] (ops 4 4 0)) ∧
    (∀ j < 1, 2 ^ 24 ≤
      (encodeValue (engine 0x1000 [0, 0, 0, 1] (ops 4 4 0)).mem 0x1000 4 false j).toNat) ∧
    4 + 1 = keybytes 1 + 4 * 1 :=
  ⟨next_of_after (by decide +kernel), by decide +kernel, by decide +kernel, by decide⟩

theorem witness_UnknownVersionCompletesWithError :
    2 ≤ (2#4 : BitVec 4).toNat ∧ sizeAccepted 4#3 (ops 20 0 0) ∧ ¬ sizeAccepted 4#3 (ops 19 0 0) ∧
      ¬ widthLegal 6#3 := by decide

/-- A device at the last byte of the destination, and the register window at the source. -/
theorem witness_CommandOnDeviceIsRefused :
    (encodeAccepted 4#3 (elementState 7).op ∧
      plainMemory ⟨0#20, [], [⟨0x2006, 1⟩]⟩ (destOf (elementState 7).op) = false) ∧
    (decodeAccepted 4#3 (streamState 7 20 5).op ∧
      plainMemory ⟨1#20, [], []⟩ (sourceOf (streamState 7 20 5).op) = false) ∧
    (transformAccepted 1#3 bufferState.op ∧
      plainMemory ⟨1#20, [], []⟩ (sourceOf bufferState.op) = false) := by decide +kernel

/-- The last byte of the source, of the written stream, of the keys, of the data and of the
elements. -/
theorem witness_UnservedAccessFaults :
    (encodeAccepted 4#3 (elementState 7).op ∧
      plainMemory plainPlatform (sourceOf (elementState 7).op) = true ∧
      plainMemory plainPlatform (destOf (elementState 7).op) = true ∧
      served ⟨0xFFFFF#20, [⟨0x1013, 1⟩], []⟩ (sourceOf (elementState 7).op) = false ∧
      served ⟨0xFFFFF#20, [⟨0x2006, 1⟩], []⟩ ⟨0x2000, 7⟩ = false) ∧
    (decodeAccepted 4#3 (streamState 7 20 5).op ∧
      plainMemory plainPlatform (sourceOf (streamState 7 20 5).op) = true ∧
      plainMemory plainPlatform (destOf (streamState 7 20 5).op) = true ∧
      served ⟨0xFFFFF#20, [⟨0x1001, 1⟩], []⟩ ⟨0x1000, keybytes 5⟩ = false ∧
      served ⟨0xFFFFF#20, [⟨0x1006, 1⟩], []⟩ ⟨0x1000, 7⟩ = false ∧
      served ⟨0xFFFFF#20, [⟨0x2013, 1⟩], []⟩ ⟨0x2000, (4#3 : BitVec 3).toNat * 5⟩ = false) ∧
    (transformAccepted 1#3 bufferState.op ∧
      plainMemory plainPlatform (sourceOf bufferState.op) = true ∧
      served ⟨0xFFFFF#20, [⟨0x1004, 1⟩], []⟩ (sourceOf bufferState.op) = false) := by
  decide +kernel

/-- An encode, and the decode of its output from where it stands. -/
theorem witness_EncodeThenDecodeRestores :
    encodeReady 4#3 (elementState 7) ∧
    ∃ t u, exec (.encV0 4#3 true) (elementState 7) = .next t ∧ t.status.err = 0#4 ∧
      decodeReady 4#3 u ∧ u.op.srcAddr = (elementState 7).op.dstAddr ∧
      t.result.toNat ≤ u.op.srcLen.toNat ∧
      u.op.count.toNat = sourceCount 4#3 (elementState 7).op ∧
      ∀ a, 0x2000 ≤ a → a < 0x2000 + t.result.toNat → u.mem.read a = t.mem.read a := by
  refine ⟨by decide +kernel, ?_⟩
  obtain ⟨t, h, h1, h2, h3⟩ := next_of_after (r := exec (.encV0 4#3 true) (elementState 7))
    (P := fun t => t.status.err = 0#4 ∧
      decodeReady 4#3 { t with op := ⟨0x2000#32, 7#32, 0x3000#32, 20#32, 5#32⟩ } ∧
      t.result.toNat ≤ 7) (by decide +kernel)
  exact ⟨t, _, h, h1, h2, rfl, h3,
    show (5#32 : Word).toNat = sourceCount 4#3 (elementState 7).op by decide, fun _ _ _ => rfl⟩

theorem witness_FusedEncodeEqualsSeparate :
    encodeReady 4#3 (elementState 7) ∧ encodeReady 4#3 (elementState 6) := by decide +kernel

/-- The ends of the four rows of R100. -/
theorem witness_KeycodeIsByteLength :
    [0x0#32, 0xFF#32, 0x100#32, 0xFFFF#32, 0x10000#32, 0xFFFFFF#32, 0x1000000#32,
      0xFFFFFFFF#32].map keycode = [0#2, 0#2, 1#2, 1#2, 2#2, 2#2, 3#2, 3#2] := by decide

/-! ## Witnesses: the register port, the interrupt and reset -/

/-- The first and the last register, and the first and the last reserved offset. -/
theorem witness_RegisterReadValues :
    (withHost (.regRead 0x028 4) bufferState).inputs = [hostSlot (.regRead 0x028 4)] ∧
    (∀ x ∈ [(0x000, 0x53564231#32), (0x028, bufferState.inUsed)],
      x ∈ [(0x000, 0x53564231#32), (0x004, BitVec.ofNat 32 bufferState.ie.toNat),
        (0x00C, bufferState.cmd), (0x024, bufferState.result), (0x028, bufferState.inUsed)]) ∧
    (0x02C % 4 = 0 ∧ 0x02C ≤ 0x02C ∧ 0x02C ≤ 0xFFC) ∧
    (0xFFC % 4 = 0 ∧ 0x02C ≤ 0xFFC ∧ 0xFFC ≤ 0xFFC) := by decide

/-- The last offset served; one past it, a misaligned one and a narrow access. -/
theorem witness_RegisterAccessFormIsChecked :
    (withHost (.regRead 0xFFC 4) bufferState).inputs = [hostSlot (.regRead 0xFFC 4)] ∧
    (withHost (.regWrite 0xFFC 4 0#32) bufferState).inputs = [hostSlot (.regWrite 0xFFC 4 0#32)] ∧
    (0xFFC % 4 = 0 ∧ 0xFFC < 0x1000) ∧ ¬ (0x1000 < 0x1000) ∧ ¬ (0x00E % 4 = 0) ∧ ¬ (2 = 4) := by
  decide

/-- Idle: an illegal word, a launch on plain memory, and one whose destination ends in a device.
Busy: any word. -/
theorem witness_CommandWriteAcceptsOrOverruns :
    (withHost (.regWrite 0x00C 4 6#32) bufferState).inputs = [hostSlot (.regWrite 0x00C 4 6#32)] ∧
    (withHost (.regWrite 0x00C 4 6#32) bufferState).status.busy = false ∧
    declaredPlain (active 6#32 bufferState) = true ∧
    declaredPlain (active 0x401#32 (elementState 7)) = true ∧
    plainMemory ⟨0xFFFFF#20, [], [⟨0x2006, 1⟩]⟩
      (activeWrite (active 0x401#32 (elementState 7))) = false ∧
    (withHost (.regWrite 0x00C 4 6#32) (active 0#32 bufferState)).inputs
      = [hostSlot (.regWrite 0x00C 4 6#32)] ∧
    (withHost (.regWrite 0x00C 4 6#32) (active 0#32 bufferState)).status.busy = true := by
  decide +kernel

/-- The idle block of a host that has written the operands `op`, about to launch `w` on a platform
with its register window at 0x3000 and a device at 0x2006. -/
def launchState (w : Word) (op : Operands) : State :=
  { State.reset with
    platform := ⟨3#20, [], [⟨0x2006, 1⟩]⟩, regs := op, inputs := [hostSlot (.regWrite 0x00C 4 w)] }

/-- The first byte of the window as the last of a source, and the device as the last byte of a
destination. -/
theorem witness_LaunchOnDeviceIsRefused :
    (launchState 0x104#32 ⟨0x2FFC#32, 5#32, 0#32, 0#32, 0#32⟩).status.busy = false ∧
    decode 0x104#32 = .ok (.dzf 1#3) ∧ decode 0x4F2#32 = .ok (.decUnknown 15#4 4#3 false) ∧
    ((3#20 : BitVec 20).toNat * 4096 ≤ 0x3000 ∧ 0x3000 < (3#20 : BitVec 20).toNat * 4096 + 4096) ∧
    0x3000 < (0x2FFC#32 : Word).toNat + (5#32 : Word).toNat ∧
    (∃ d ∈ (launchState 0x4F2#32 (ops 0 7 0)).platform.devices,
      d.base ≤ 0x2006 ∧ 0x2006 < d.base + d.size) ∧
    0x2006 < (ops 0 7 0).dstAddr.toNat + (ops 0 7 0).dstCap.toNat := by decide

/-- R58 and I16 at the CMD write: a buffer on the window, and a launch that would fail a check. -/
theorem test_launch_refused :
    stopOf (step (launchState 0x104#32 ⟨0x2FFC#32, 5#32, 0#32, 0#32, 0#32⟩))
        = some (.inr .regionNotPlainMemory) ∧
      stopOf (step (launchState 0x4F2#32 (ops 0 7 0))) = some (.inr .regionNotPlainMemory) := by
  decide +kernel

/-- Beside the window and the device, and with operands the command does not use. -/
theorem test_launch_accepted :
    stopOf (step (launchState 0x104#32 ⟨0x2FFB#32, 5#32, 0#32, 0#32, 0#32⟩)) = none ∧
      stopOf (step (launchState 0x401#32 (ops 4 6 0))) = none ∧
      stopOf (step (launchState 0x403#32 ⟨0x3000#32, 4#32, 0x2006#32, 1#32, 0#32⟩)) = none := by
  decide +kernel

theorem witness_StatusWriteClearsByOne :
    (withHost (.regWrite 0x008 4 2#32) bufferState).inputs
      = [hostSlot (.regWrite 0x008 4 2#32)] := by decide

theorem witness_ControlWriteStoresEnable :
    (withHost (.regWrite 0x004 4 0xFFFFFFFD#32) bufferState).inputs
      = [hostSlot (.regWrite 0x004 4 0xFFFFFFFD#32)] ∧
    (0xFFFFFFFD#32 : Word).getLsbD 1 = false := by decide

theorem witness_OperandWriteChangesOneRegister :
    ∀ offset ∈ [0x010, 0x014, 0x018, 0x01C, 0x020],
      (withHost (.regWrite offset 4 7#32) (active 0#32 bufferState)).inputs
        = [hostSlot (.regWrite offset 4 7#32)] := by decide

theorem witness_ReadOnlyWritesAreIgnored :
    ∀ offset ∈ [0x000, 0x024, 0x028, 0x02C, 0xFFC],
      (withHost (.regWrite offset 4 7#32) bufferState).inputs
          = [hostSlot (.regWrite offset 4 7#32)] ∧
        (offset = 0x000 ∨ offset = 0x024 ∨ offset = 0x028 ∨
          (offset % 4 = 0 ∧ 0x02C ≤ offset ∧ offset ≤ 0xFFC)) := by decide

/-- `rst` beside a host write; SRST beside IE; a write region cut by the end of the address space,
its one byte that exists, and the bytes beside it. -/
theorem witness_ResetSetsEveryRegister :
    resetsBlock ⟨true, some (.regWrite 0x00C 4 0#32)⟩ = true ∧
    resetsBlock (hostSlot (.regWrite 0x004 4 3#32)) = true ∧
    bufferState.status.busy = false ∧
    activeWrite (active 0x401#32
      { bufferState with op := ⟨0#32, 0#32, 0xFFFFFFFF#32, 2#32, 0#32⟩ }) = ⟨0xFFFFFFFF, 2⟩ ∧
    bufferState.mem.wf ∧ 0 < 2 ∧ 0xFFFFFFFF + 0 < 2 ^ 32 ∧ 0xFFFFFFFE < 0xFFFFFFFF := by decide +kernel

theorem witness_ActiveRegionsFollowTable :
    bufferState.status.busy = false ∧ (active 0#32 bufferState).status.busy = true ∧
    decode 0x6#32 = .error .reservedOpcode ∧ decode 0x0#32 = .ok .nop ∧
    decode 0x403#32 = .ok (.bound 4#3) ∧ decode 0x104#32 = .ok (.dzf 1#3) ∧
    decode 0x105#32 = .ok (.dzi 1#3) ∧ decode 0x401#32 = .ok (.encV0 4#3 false) ∧
    decode 0x4F2#32 = .ok (.decUnknown 15#4 4#3 false) := by decide

/-! ## Witnesses: the host's data memory accesses -/

/-- The last byte of the source region, and the first of the write region. -/
theorem witness_HostWriteToActiveRegionFaults :
    (withHost (.memWrite 0x1013#32 [1#8]) (active 0x401#32 (elementState 7))).inputs
      = [hostSlot (.memWrite 0x1013#32 [1#8])] ∧
    regionHas (activeSource (active 0x401#32 (elementState 7))) (0x1013 + 0) = true ∧
    regionHas (activeWrite (active 0x401#32 (elementState 7))) (0x1FFF + 1) = true := by
  decide +kernel

/-- The byte after the source region, and the last byte of the address space. -/
theorem witness_HostWriteStoresItsBytes :
    (withHost (.memWrite 0x1014#32 [1#8]) (active 0x401#32 (elementState 7))).inputs
      = [hostSlot (.memWrite 0x1014#32 [1#8])] ∧
    (∀ k < 1, regionHas (activeSource (active 0x401#32 (elementState 7))) (0x1014 + k) = false ∧
      regionHas (activeWrite (active 0x401#32 (elementState 7))) (0x1014 + k) = false) ∧
    onServedMemory plainPlatform ⟨0x1014, 1⟩ ∧ (elementState 7).mem.wf ∧
    0xFFFFFFFF + 1 ≤ 2 ^ 32 ∧ onServedMemory ⟨0#20, [], []⟩ ⟨0xFFFFFFFF, 1⟩ := by decide +kernel

/-- A read that starts before the write region and ends inside it. -/
theorem witness_HostReadReturnsBytes :
    (withHost (.memRead 0x1FFF#32 2) (active 0x401#32 (elementState 7))).inputs
      = [hostSlot (.memRead 0x1FFF#32 2)] ∧
    0x1FFF + 2 ≤ 2 ^ 32 ∧ onServedMemory plainPlatform ⟨0x1FFF, 2⟩ ∧
    regionHas (activeWrite (active 0x401#32 (elementState 7))) (0x1FFF + 0) = false ∧
    regionHas (activeWrite (active 0x401#32 (elementState 7))) (0x1FFF + 1) = true := by
  decide +kernel

/-! ## Witnesses: the whole machine -/

/-- A step of an active command over memory that lists bytes. -/
theorem witness_StepKeepsConsistent :
    Consistent (active 0x104#32 bufferState) ∧
      ∃ t, step (active 0x104#32 bufferState) = .next t ∧ t.mem ≠ bufferState.mem :=
  ⟨⟨by decide +kernel, by decide, by decide, by decide, by decide, by decide, by decide +kernel⟩,
    next_of_after (by decide +kernel)⟩

theorem witness_CommandChangesOnlyItsResults :
    ∃ t, exec (.dzf 1#3) bufferState = .next t ∧ t.mem ≠ bufferState.mem :=
  next_of_after (by decide +kernel)

/-- One run for each clause. -/
theorem witness_CommandMemoryFrame :
    (∃ t, exec (.encV0 4#3 true) (elementState 6) = .next t ∧ t.status.err ≠ 0#4) ∧
    (∃ t, exec (.bound 4#3) bufferState = .next t ∧ t.status.err = 0#4) ∧
    (∃ t, exec (.decV1 4#3 true) (streamState 7 20 5) = .next t ∧ t.result = 20#32) ∧
    (∃ t, exec (.dzi 1#3) bufferState = .next t ∧ t.result = 5#32) :=
  ⟨next_of_after (by decide +kernel), next_of_after (by decide +kernel),
    next_of_after (by decide +kernel), next_of_after (by decide +kernel)⟩

/-- A memory that differs in the byte after the source region. -/
theorem witness_EncodeReadsOnlyItsSource :
    (elementState 7).mem.wf ∧ (writeBytes (elementState 7).mem 0x1014 [9#8]).wf ∧
    (∀ a, 0x1000 ≤ a → a < 0x1000 + 20 →
      (writeBytes (elementState 7).mem 0x1014 [9#8]).read a = (elementState 7).mem.read a) ∧
    ∃ t, exec (.encV1 4#3 true) (elementState 7) = .next t ∧ t.result = 7#32 :=
  ⟨by decide +kernel, by decide +kernel,
    fun a _ h => read_writeBytes_outside _ _ _ _ (.inl h), next_of_after (by decide +kernel)⟩

/-- A memory that differs in the byte after the stream, inside the source region. -/
theorem witness_DecodeReadsOnlyItsStream :
    (streamState 8 20 5).mem.wf ∧ (writeBytes (streamState 8 20 5).mem 0x1007 [9#8]).wf ∧
    (∀ a, 0x1000 ≤ a → a < 0x1000 + 7 →
      (writeBytes (streamState 8 20 5).mem 0x1007 [9#8]).read a
        = (streamState 8 20 5).mem.read a) ∧
    ∃ t, exec (.decV0 4#3 true) (streamState 8 20 5) = .next t ∧ t.status.err = 0#4 ∧
      t.inUsed.toNat = 7 :=
  ⟨by decide +kernel, by decide +kernel,
    fun a _ h => read_writeBytes_outside _ _ _ _ (.inl h), next_of_after (by decide +kernel)⟩

theorem witness_DoneRisesOnlyAtCompletion :
    ∃ t, step (active 0#32 bufferState) = .next t ∧
      (active 0#32 bufferState).status.done = false ∧ t.status.done = true :=
  next_of_after (by decide +kernel)

theorem witness_BusyRisesOnlyAtAcceptance :
    ∃ t, step (withHost (.regWrite 0x00C 4 6#32) bufferState) = .next t ∧
      bufferState.status.busy = false ∧ t.status.busy = true :=
  next_of_after (by decide +kernel)

/-- A completion, and a soft reset. -/
theorem witness_BusyFallsOnlyAtCompletionOrReset :
    (∃ t, step (active 0#32 bufferState) = .next t ∧
      (active 0#32 bufferState).status.busy = true ∧ t.status.busy = false) ∧
    (∃ t, step (withHost (.regWrite 0x004 4 2#32) (active 0#32 bufferState)) = .next t ∧
      (active 0#32 bufferState).status.busy = true ∧ t.status.busy = false) :=
  ⟨next_of_after (by decide +kernel), next_of_after (by decide +kernel)⟩

theorem witness_OverrunStaysUntilCleared :
    ∃ t, step (withHost (.regWrite 0x008 4 4#32)
        { bufferState with status := ⟨false, true, true, 0#4⟩ }) = .next t ∧ t.status.ovr = false :=
  next_of_after (by decide +kernel)

/-- A completion, and a host write. -/
theorem witness_MemoryChangesOnlyByItsWriters :
    (∃ t, step (active 0x104#32 bufferState) = .next t ∧ t.mem ≠ bufferState.mem) ∧
    (∃ t, step (withHost (.memWrite 0x1005#32 [1#8]) (active 0x104#32 bufferState)) = .next t ∧
      t.mem ≠ bufferState.mem) :=
  ⟨next_of_after (by decide +kernel), next_of_after (by decide +kernel)⟩

/-- A CTRL write, an operand write, and an acceptance that latches other operands. -/
theorem witness_ControlChangesOnlyByTheHost :
    (∃ t, step (withHost (.regWrite 0x004 4 1#32) bufferState) = .next t ∧
      t.ie ≠ bufferState.ie) ∧
    (∃ t, step (withHost (.regWrite 0x014 4 1#32) bufferState) = .next t ∧
      t.regs ≠ bufferState.regs) ∧
    (∃ t, step (withHost (.regWrite 0x00C 4 0#32) bufferState) = .next t ∧
      t.op ≠ bufferState.op) :=
  ⟨next_of_after (by decide +kernel), next_of_after (by decide +kernel),
    next_of_after (by decide +kernel)⟩

end Sys2Proof.Tests
end

section
/-! The statements of 00_scope.md: zig-zag as a map of signed numbers, and the regions of the active
command. -/

namespace Sys2Proof.Machine

/-! ## Zig-zag by the sign of its operand -/

theorem zigzag_of_msb_false {n : Nat} {s : BitVec n} (h : s.msb = false) : zigzag s = s <<< 1 := by
  simp [zigzag, spread, h]

theorem zigzag_of_msb_true {n : Nat} {s : BitVec n} (h : s.msb = true) :
    zigzag s = ~~~(s <<< 1) := by
  simp [zigzag, spread, h]

/-- Doubling a word with a clear sign bit loses no bit. -/
theorem toNat_zigzag_of_msb_false {n : Nat} {s : BitVec n} (h : s.msb = false) :
    (zigzag s).toNat = 2 * s.toNat := by
  have hsmall : 2 * s.toNat < 2 ^ n := BitVec.msb_eq_false_iff_two_mul_lt.mp h
  rw [zigzag_of_msb_false h, BitVec.toNat_shiftLeft, Nat.shiftLeft_eq, Nat.pow_one, Nat.mul_comm,
    Nat.mod_eq_of_lt hsmall]

/-- Doubling a word with a set sign bit drops that bit alone; the complement then counts down from
the largest word. -/
theorem toNat_zigzag_of_msb_true {n : Nat} {s : BitVec n} (h : s.msb = true) :
    (zigzag s).toNat = 2 ^ n - 1 - (2 * s.toNat - 2 ^ n) := by
  have hlarge : 2 ^ n ≤ 2 * s.toNat := BitVec.msb_eq_true_iff_two_mul_ge.mp h
  have hlt : 2 * s.toNat - 2 ^ n < 2 ^ n := by have := s.isLt; omega
  rw [zigzag_of_msb_true h, BitVec.toNat_not, BitVec.toNat_shiftLeft, Nat.shiftLeft_eq,
    Nat.pow_one, Nat.mul_comm, Nat.mod_eq_sub_mod hlarge, Nat.mod_eq_of_lt hlt]

/-- Settles O31: by the sign bit, the word is its signed value or that value plus 2^n. -/
theorem zigzagOfSignedValue : Obligations.ZigzagOfSignedValue := by
  intro n s
  have hlt := s.isLt
  cases h : s.msb with
  | false =>
    have hval : s.toInt = s.toNat := BitVec.toInt_eq_toNat_of_msb h
    rw [toNat_zigzag_of_msb_false h, if_pos (by omega)]
    omega
  | true =>
    have hlarge : 2 ^ n ≤ 2 * s.toNat := BitVec.msb_eq_true_iff_two_mul_ge.mp h
    have hval : s.toInt = s.toNat - (2 ^ n : Nat) := by rw [BitVec.toInt_eq_msb_cond, if_pos h]
    rw [toNat_zigzag_of_msb_true h, if_neg (by omega)]
    omega

/-! ## The region of the active command -/

theorem activeRegion_of_idle (f : Operands → Instr → Region) {s : State}
    (h : s.status.busy = false) : activeRegion f s = noRegion := by
  simp [activeRegion, h]

theorem activeRegion_of_illegal (f : Operands → Instr → Region) {s : State} {e : DecodeError}
    (h : decode s.cmd = .error e) : activeRegion f s = noRegion := by
  simp [activeRegion, h]

theorem activeRegion_of_command (f : Operands → Instr → Region) {s : State} {i : Instr}
    (hb : s.status.busy = true) (h : decode s.cmd = .ok i) : activeRegion f s = f s.op i := by
  simp [activeRegion, hb, h]

theorem activeSource_of_command {s : State} {i : Instr} (hb : s.status.busy = true)
    (h : decode s.cmd = .ok i) : activeSource s = sourceRegion s.op i :=
  activeRegion_of_command sourceRegion hb h

theorem activeWrite_of_command {s : State} {i : Instr} (hb : s.status.busy = true)
    (h : decode s.cmd = .ok i) : activeWrite s = writeRegion s.op i :=
  activeRegion_of_command writeRegion hb h

/-- Settles O42: an idle engine and an illegal word have no region, and a decoded command has those
of its row in the tables of declared regions. -/
theorem activeRegionsFollowTable : Obligations.ActiveRegionsFollowTable := by
  intro s
  refine ⟨fun hidle => ?idle, fun hbusy => ⟨fun e he => ?illegal, fun i w hi hrow => ?noRegions,
    fun i w hi hrow => ?inPlace, fun i w dz ver hi hrow => ?stream⟩⟩
  case idle =>
    rw [activeSource, activeWrite, activeRegion_of_idle _ hidle, activeRegion_of_idle _ hidle]
    exact ⟨rfl, rfl⟩
  case illegal =>
    rw [activeSource, activeWrite, activeRegion_of_illegal _ he, activeRegion_of_illegal _ he]
    exact ⟨rfl, rfl⟩
  all_goals rw [activeSource_of_command hbusy hi, activeWrite_of_command hbusy hi]
  case noRegions => obtain rfl | rfl := hrow <;> exact ⟨rfl, rfl⟩
  case inPlace => obtain rfl | rfl := hrow <;> exact ⟨rfl, rfl⟩
  case stream => obtain rfl | rfl | rfl | rfl | rfl | rfl := hrow <;> exact ⟨rfl, rfl⟩

end Sys2Proof.Machine
end

section
/-! The agents' steps: what each kind of input slot makes the step do, and every next state of a
step in one list. -/

namespace Sys2Proof.Machine

/-! ## The step by the slot it takes -/

theorem step_of_no_input {s : State} (h : s.inputs = []) : step s = engineTurn s := by
  rw [step, h]

theorem step_of_engineSlot {s : State} {rest : List Slot} (h : s.inputs = engineSlot :: rest) :
    step s = engineTurn { s with inputs := rest } := by
  rw [step, h]; rfl

theorem step_of_hostSlot {s : State} {a : HostAccess} {rest : List Slot}
    (h : s.inputs = hostSlot a :: rest) : step s = hostAccess a { s with inputs := rest } := by
  rw [step, h]; rfl

theorem engineTurn_of_command {s : State} {i : Instr} (hb : s.status.busy = true)
    (hi : decode s.cmd = .ok i) : engineTurn s = exec i s := by
  simp [engineTurn, fetch, hb, hi]

/-! ## Resets -/

theorem isSoftReset_iff (a : HostAccess) :
    isSoftReset a = true ↔ ∃ v : Word, a = .regWrite 0x004 4 v ∧ v.getLsbD 1 = true := by
  cases a <;> simp [isSoftReset, and_assoc]

/-- A reset is `rst`, or a CTRL write with SRST. -/
theorem resetsBlock_iff (slot : Slot) :
    resetsBlock slot = true ↔
      slot.rst = true ∨
        ∃ v : Word, slot.host = some (.regWrite 0x004 4 v) ∧ v.getLsbD 1 = true := by
  obtain ⟨r, a⟩ := slot
  cases a <;> simp [resetsBlock, isSoftReset_iff]

/-- A slot that resets the block does nothing else. -/
theorem step_of_resetsBlock {s : State} {slot : Slot} {rest : List Slot}
    (h : s.inputs = slot :: rest) (hr : resetsBlock slot = true) :
    step s = .next (resetBlock { s with inputs := rest }) := by
  obtain ⟨r, a⟩ := slot
  cases r with
  | true => rw [step, h]; rfl
  | false =>
    rw [resetsBlock_iff] at hr
    obtain hr | ⟨v, ha, hv⟩ := hr
    · cases hr
    · obtain rfl : a = _ := ha
      rw [step_of_hostSlot h, hostAccess, hostRegWrite_other _ _ _ rfl (by decide) (by decide)]
      exact congrArg _ (if_pos hv)

/-! ## Every next state of a step -/

/-- The next step is the engine's: no input is left, or its slot is empty. -/
abbrev engineIsNext (s : State) : Prop :=
  s.inputs = [] ∨ ∃ rest, s.inputs = engineSlot :: rest

/-- Every state a step from `s` can leave, by the event that leaves it. -/
inductive StepEffect (s : State) : State → Prop where
  /-- No register changes: an idle engine, a read, an ignored write, a host data access. -/
  | quiet (rest : List Slot) (m : Memory) (reply : Reply) (draws : Nat) : (s.mem.wf → m.wf) →
      StepEffect s { s with inputs := rest, mem := m, reply := reply, draws := draws }
  | failure (rest : List Slot) (e : ErrorCause) : engineIsNext s → s.status.busy = true →
      StepEffect s (raiseError e { s with inputs := rest })
  | success (rest : List Slot) (m : Memory) (result used : Nat) : engineIsNext s →
      s.status.busy = true → (s.mem.wf → m.wf) →
      StepEffect s (complete result used { s with inputs := rest, mem := m })
  | reset (slot : Slot) (rest : List Slot) : s.inputs = slot :: rest → resetsBlock slot = true →
      StepEffect s (resetBlock { s with inputs := rest })
  | enable (rest : List Slot) (offset : Nat) (v : Word) :
      s.inputs = hostSlot (.regWrite offset 4 v) :: rest →
      StepEffect s { s with inputs := rest, ie := v.getLsbD 0 }
  | acknowledge (rest : List Slot) (v : Word) :
      s.inputs = hostSlot (.regWrite 0x008 4 v) :: rest →
      StepEffect s (acknowledge v { s with inputs := rest })
  | overrun (rest : List Slot) : s.status.busy = true →
      StepEffect s { s with inputs := rest, status := overrunStatus s.status }
  | accept (rest : List Slot) (v : Word) : s.inputs = hostSlot (.regWrite 0x00C 4 v) :: rest →
      s.status.busy = false → declaredPlain (acceptCommand v s) = true →
      StepEffect s (acceptCommand v { s with inputs := rest })
  | operand (rest : List Slot) (offset : Nat) (v : Word) (r : Operands) :
      s.inputs = hostSlot (.regWrite offset 4 v) :: rest →
      StepEffect s { s with inputs := rest, regs := r }

/-- The engine's turn is idle, or completes the active command. -/
theorem stepEffect_of_engineTurn {s t : State} {rest : List Slot} (hturn : engineIsNext s)
    (h : engineTurn { s with inputs := rest } = .next t) : StepEffect s t := by
  obtain ⟨-, rfl⟩ | ⟨hb, i, -, hexec⟩ | ⟨hb, e, -, rfl⟩ := engineTurn_next h
  · exact .quiet rest s.mem s.reply s.draws id
  · obtain ⟨e, rfl⟩ | ⟨a, bs, r, u, hfits, rfl⟩ := exec_next hexec
    · exact .failure rest e hturn hb
    · exact .success rest (writeBytes s.mem a bs) r u hturn hb
        fun hwf => writeBytes_wf s.mem a bs hwf hfits
  · exact .failure rest _ hturn hb

/-- A host access reads, stores bytes, or writes a register. -/
theorem stepEffect_of_hostEffect {s t : State} {a : HostAccess} {rest : List Slot}
    (hin : s.inputs = hostSlot a :: rest) (h : HostEffect { s with inputs := rest } a t) :
    StepEffect s t := by
  cases h with
  | regRead offset v => exact .quiet rest s.mem (.reg v) s.draws id
  | memRead addr n bs d => exact .quiet rest s.mem (.mem bs) d id
  | memWrite addr bs hfits =>
    exact .quiet rest (writeBytes s.mem addr.toNat bs) s.reply s.draws
      fun hwf => writeBytes_wf s.mem addr.toNat bs hwf hfits
  | regWrite offset v _ hwrite hlaunch =>
    cases hwrite with
    | ignored => exact .quiet rest s.mem s.reply s.draws id
    | reset hv => exact .reset _ rest hin ((resetsBlock_iff _).mpr (.inr ⟨v, rfl, hv⟩))
    | enable => exact .enable rest _ v hin
    | acknowledge => exact .acknowledge rest v hin
    | overrun hb => exact .overrun rest hb
    | accept hb =>
      rw [launchRefused_idle v _ hb, Bool.not_eq_false'] at hlaunch
      exact .accept rest v hin hb hlaunch
    | operand _ r => exact .operand rest offset v r hin

theorem step_effect {s t : State} (h : step s = .next t) : StepEffect s t := by
  obtain ⟨u, rest, rfl, ⟨hturn, heng⟩ | ⟨a, hin, hhost⟩ | ⟨a, hin, rfl⟩⟩ := step_next h
  · exact stepEffect_of_engineTurn (hturn.imp And.left fun hin => ⟨rest, hin⟩) heng
  · exact stepEffect_of_hostEffect hin hhost
  · exact .reset ⟨true, a⟩ rest hin rfl

end Sys2Proof.Machine
end

section
/-! The invariant of the registers and the memory: it holds after reset and every step keeps it. -/

namespace Sys2Proof.Machine

/-! ## What the invariant reads -/

/-- The active regions depend on BUSY, CMD and the latched operands alone. -/
theorem activeRegion_congr (f : Operands → Instr → Region) {s t : State}
    (hbusy : t.status.busy = s.status.busy) (hcmd : t.cmd = s.cmd) (hop : t.op = s.op) :
    activeRegion f t = activeRegion f s := by
  simp only [activeRegion, hbusy, hcmd, hop]

theorem declaredPlain_congr {s t : State} (hbusy : t.status.busy = s.status.busy)
    (hcmd : t.cmd = s.cmd) (hop : t.op = s.op) (hplat : t.platform = s.platform) :
    declaredPlain t = declaredPlain s := by
  simp only [declaredPlain, activeSource, activeWrite, activeRegion_congr _ hbusy hcmd hop, hplat]

/-- A write region starts inside the address space: at an operand, or at 0 where there is none. -/
theorem activeWrite_base_lt (s : State) : (activeWrite s).base < Config.addressSpace := by
  have hdst := s.op.dstAddr.isLt
  have hsrc := s.op.srcAddr.isLt
  cases hb : s.status.busy with
  | false => rw [activeWrite, activeRegion_of_idle _ hb]; decide
  | true =>
    cases hd : decode s.cmd with
    | error e => rw [activeWrite, activeRegion_of_illegal _ hd]; decide
    | ok i =>
      rw [activeWrite_of_command hb hd]
      cases i with
      | nop => exact Nat.two_pow_pos 32
      | bound w => exact Nat.two_pow_pos 32
      | dzf w => exact hsrc
      | dzi w => exact hsrc
      | encV0 w dz => exact hdst
      | encV1 w dz => exact hdst
      | decV0 w dz => exact hdst
      | decV1 w dz => exact hdst
      | encUnknown ver w dz => exact hdst
      | decUnknown ver w dz => exact hdst

/-- The bytes an abort draws lie inside the address space. -/
theorem abortedBytes_fit (s : State) :
    (activeWrite s).base + (freeBytes s.draws (abortedCount s)).length ≤ Config.addressSpace := by
  have hbase := activeWrite_base_lt s
  rw [freeBytes_length, abortedCount, existingSize]
  omega

theorem abortedMemory_wf {s : State} (h : s.mem.wf) : (abortedMemory s).wf :=
  writeBytes_wf s.mem _ _ h (abortedBytes_fit s)

/-! ## The invariant under each update -/

/-- A step that keeps ERR, RESULT, IN_USED and the command, and sets no DONE, keeps the
invariant. -/
theorem Consistent.frame {s t : State} (h : Consistent s) (hmem : t.mem.wf)
    (hbusy : t.status.busy = s.status.busy) (herr : t.status.err = s.status.err)
    (hdone : s.status.done = false → t.status.done = false) (hresult : t.result = s.result)
    (hused : t.inUsed = s.inUsed) (hcmd : t.cmd = s.cmd) (hop : t.op = s.op)
    (hplat : t.platform = s.platform) : Consistent t where
  memory := hmem
  code := by rw [herr]; exact h.code
  busyNotDone := by rw [hbusy]; exact fun hb => hdone (h.busyNotDone hb)
  busyNoError := by rw [hbusy, herr]; exact h.busyNoError
  errorResult := by rw [herr, hresult]; exact h.errorResult
  errorUsed := by rw [herr, hused]; exact h.errorUsed
  launchPlain := by
    rw [hbusy, declaredPlain_congr hbusy hcmd hop hplat]
    exact h.launchPlain

theorem consistent_raiseError (e : ErrorCause) {s : State} (h : s.mem.wf) :
    Consistent (raiseError e s) where
  memory := h
  code := errorCode_le e
  busyNotDone := by simp
  busyNoError := by simp
  errorResult := fun _ => rfl
  errorUsed := fun _ => rfl
  launchPlain := by simp

theorem consistent_complete (result used : Nat) {s : State} (h : s.mem.wf) :
    Consistent (complete result used s) where
  memory := h
  code := by simp
  busyNotDone := by simp
  busyNoError := by simp
  errorResult := by simp
  errorUsed := by simp
  launchPlain := by simp

theorem consistent_resetBlock {s : State} (h : s.mem.wf) : Consistent (resetBlock s) where
  memory := abortedMemory_wf h
  code := by simp [Status.zero]
  busyNotDone := by simp [Status.zero]
  busyNoError := by simp [Status.zero]
  errorResult := by simp
  errorUsed := by simp
  launchPlain := by simp [Status.zero]

/-- An accepted launch is one on plain memory, and it clears DONE and ERR. -/
theorem consistent_acceptCommand {v : Word} {s : State} (h : s.mem.wf)
    (hplain : declaredPlain (acceptCommand v s) = true) : Consistent (acceptCommand v s) where
  memory := h
  code := by simp
  busyNotDone := by simp
  busyNoError := by simp
  errorResult := by simp
  errorUsed := by simp
  launchPlain := fun _ => hplain

/-- Settles O47: every event either writes the fields the invariant relates together, or leaves
them alone. -/
theorem stepKeepsConsistent : Obligations.StepKeepsConsistent := by
  intro s t h hstep
  cases step_effect hstep with
  | quiet rest m reply draws hwf => exact h.frame (hwf h.memory) rfl rfl id rfl rfl rfl rfl rfl
  | failure rest e => exact consistent_raiseError e h.memory
  | success rest m result used _ _ hwf => exact consistent_complete result used (hwf h.memory)
  | reset slot rest => exact consistent_resetBlock h.memory
  | enable rest offset v => exact h.frame h.memory rfl rfl id rfl rfl rfl rfl rfl
  | acknowledge rest v =>
    refine h.frame h.memory rfl rfl (fun hdone => ?_) rfl rfl rfl rfl rfl
    simp [hdone]
  | overrun rest => exact h.frame h.memory rfl rfl id rfl rfl rfl rfl rfl
  | accept rest v _ _ hplain => exact consistent_acceptCommand h.memory hplain
  | operand rest offset v r => exact h.frame h.memory rfl rfl id rfl rfl rfl rfl rfl

/-- Settles O46: no command is active, ERR is 0 and no byte is listed. -/
theorem resetIsConsistent : Obligations.ResetIsConsistent where
  memory := ⟨List.Pairwise.nil, fun _ hc => nomatch hc⟩
  code := by decide
  busyNotDone := fun _ => rfl
  busyNoError := fun _ => rfl
  errorResult := fun _ => rfl
  errorUsed := fun _ => rfl
  launchPlain := fun hb => by cases hb

end Sys2Proof.Machine
end

section
/-! What changes a field of STATUS, CTRL or the operands: read off the list of a step's next
states. -/

namespace Sys2Proof.Machine

/-- Settles O53: of all events only a completion writes DONE = 1. -/
theorem doneRisesOnlyAtCompletion : Obligations.DoneRisesOnlyAtCompletion := by
  intro s t hstep hbefore hafter
  cases step_effect hstep with
  | failure rest e hturn hb => exact ⟨hb, rfl, hturn⟩
  | success rest m result used hturn hb => exact ⟨hb, rfl, hturn⟩
  | reset slot rest => cases hafter
  | acknowledge rest v => simp [hbefore] at hafter
  | accept rest v => cases hafter
  | _ => exact absurd (hbefore.symm.trans hafter) Bool.false_ne_true

/-- Settles O54: of all events only an acceptance writes BUSY = 1. -/
theorem busyRisesOnlyAtAcceptance : Obligations.BusyRisesOnlyAtAcceptance := by
  intro s t hstep hbefore hafter
  cases step_effect hstep with
  | failure rest e => cases hafter
  | success rest m result used => cases hafter
  | reset slot rest => cases hafter
  | accept rest v hin => exact ⟨v, rest, hin, rfl, rfl⟩
  | _ => exact absurd (hbefore.symm.trans hafter) Bool.false_ne_true

/-- Settles O55: of all events only completions and resets write BUSY = 0. -/
theorem busyFallsOnlyAtCompletionOrReset : Obligations.BusyFallsOnlyAtCompletionOrReset := by
  intro s t hstep hbefore hafter
  cases step_effect hstep with
  | failure rest e hturn => exact .inl ⟨rfl, hturn⟩
  | success rest m result used hturn => exact .inl ⟨rfl, hturn⟩
  | reset slot rest hin hreset => exact .inr ⟨rfl, slot, rest, hin, hreset⟩
  | accept rest v => cases hafter
  | _ => exact absurd (hafter.symm.trans hbefore) Bool.false_ne_true

/-- Settles O56: completions and acceptances keep OVR, an overrun sets it, and a STATUS write clears
it by bit 2. -/
theorem overrunStaysUntilCleared : Obligations.OverrunStaysUntilCleared := by
  intro s t hstep hbefore hafter
  cases step_effect hstep with
  | reset slot rest hin hreset => exact ⟨slot, rest, hin, .inl hreset⟩
  | acknowledge rest v hin =>
    have hbit : v.getLsbD 2 = true := by simpa [hbefore] using hafter
    exact ⟨_, rest, hin, .inr ⟨v, rfl, hbit⟩⟩
  | overrun rest => cases hafter
  | _ => exact absurd (hafter.symm.trans hbefore) Bool.false_ne_true

/-- Settles O58: the events that write CTRL or an operand register carry a register write, and only
an acceptance or a reset writes the latched copies. -/
theorem controlChangesOnlyByTheHost : Obligations.ControlChangesOnlyByTheHost := by
  intro s t hstep
  cases step_effect hstep with
  | reset slot rest hin hreset =>
    exact ⟨fun _ => ⟨slot, rest, hin, .inl hreset⟩, fun _ => ⟨slot, rest, hin, .inl hreset⟩⟩
  | enable rest offset v hin =>
    exact ⟨fun _ => ⟨_, rest, hin, .inr ⟨offset, v, rfl⟩⟩, fun hop => absurd rfl hop⟩
  | operand rest offset v r hin =>
    exact ⟨fun _ => ⟨_, rest, hin, .inr ⟨offset, v, rfl⟩⟩, fun hop => absurd rfl hop⟩
  | accept rest v hin hidle =>
    exact ⟨fun hchange => by simp at hchange,
      fun _ => ⟨_, rest, hin, .inr ⟨hidle, rfl, v, rfl⟩⟩⟩
  | _ => exact ⟨fun hchange => by simp at hchange, fun hop => absurd rfl hop⟩

end Sys2Proof.Machine
end

section
/-! Commands and the visible operand registers: no command reads them. -/

namespace Sys2Proof.Machine

/-- The answer of a command with the visible operand registers of its next state set to `r`. -/
def withVisible (r : Operands) : StepResult → StepResult
  | .next t => .next { t with regs := r }
  | .fault f => .fault f
  | .refused q => .refused q

theorem withVisible_ite (r : Operands) (c : Prop) [Decidable c] (x y : StepResult) :
    withVisible r (if c then x else y) = if c then withVisible r x else withVisible r y :=
  apply_ite (withVisible r) c x y

theorem encodeCommand_withVisible (keys : List Word → List Byte) (w : BitVec 3) (dz : Bool)
    (s : State) (r : Operands) :
    encodeCommand keys w dz { s with regs := r } = withVisible r (encodeCommand keys w dz s) := by
  simp only [encodeCommand, writeStream, withVisible_ite]
  rfl

theorem decodeCommand_withVisible (rc : List Byte → Nat → BitVec 2) (w : BitVec 3) (dz : Bool)
    (s : State) (r : Operands) :
    decodeCommand rc w dz { s with regs := r } = withVisible r (decodeCommand rc w dz s) := by
  simp only [decodeCommand, readStream, withVisible_ite]
  rfl

theorem transformCommand_withVisible (f : (n : Nat) → List (BitVec n) → List (BitVec n))
    (w : BitVec 3) (s : State) (r : Operands) :
    transformCommand f w { s with regs := r } = withVisible r (transformCommand f w s) := by
  simp only [transformCommand, withVisible_ite]
  rfl

theorem exec_withVisible (i : Instr) (s : State) (r : Operands) :
    exec i { s with regs := r } = withVisible r (exec i s) := by
  cases i with
  | nop => rfl
  | encV0 w dz => exact encodeCommand_withVisible _ w dz s r
  | encV1 w dz => exact encodeCommand_withVisible _ w dz s r
  | decV0 w dz => exact decodeCommand_withVisible _ w dz s r
  | decV1 w dz => exact decodeCommand_withVisible _ w dz s r
  | dzf w => exact transformCommand_withVisible _ w s r
  | dzi w => exact transformCommand_withVisible _ w s r
  | bound w => simp only [exec, execBound, withVisible_ite]; rfl
  | encUnknown ver w dz => simp only [exec, execEncUnknown, withVisible_ite]; rfl
  | decUnknown ver w dz => simp only [exec, execDecUnknown, withVisible_ite]; rfl

/-- Settles O50: the shared operations of the commands read the latched copies alone. -/
theorem commandIgnoresVisibleOperands : Obligations.CommandIgnoresVisibleOperands := by
  intro i s r
  rw [exec_withVisible]
  cases exec i s <;> rfl

end Sys2Proof.Machine
end

section
/-! Reset: the registers it sets and the bytes an abort leaves free. -/

namespace Sys2Proof.Machine

theorem freeBytes_getElem (d n k : Nat) (h : k < (freeBytes d n).length) :
    (freeBytes d n)[k] = Config.freeByte (d + k) := by
  simp [freeBytes]

theorem abortedMemory_read_outside (s : State) (a : Nat)
    (h : a < (activeWrite s).base ∨ (activeWrite s).base + (activeWrite s).size ≤ a) :
    (abortedMemory s).read a = s.mem.read a := by
  apply read_writeBytes_outside
  rw [freeBytes_length, abortedCount, existingSize]
  omega

theorem abortedMemory_read_inside {s : State} (hwf : s.mem.wf) (k : Nat)
    (hk : k < (activeWrite s).size) (hfit : (activeWrite s).base + k < Config.addressSpace) :
    (abortedMemory s).read ((activeWrite s).base + k) = Config.freeByte (s.draws + k) := by
  have hcount : k < (freeBytes s.draws (abortedCount s)).length := by
    rw [freeBytes_length, abortedCount, existingSize]
    omega
  rw [abortedMemory, read_writeBytes_inside _ _ _ hwf (abortedBytes_fit s) k hcount,
    freeBytes_getElem]

/-- Settles O41: `rst` and SRST both do `resetBlock`, whose memory is that of an abort. -/
theorem resetSetsEveryRegister : Obligations.ResetSetsEveryRegister := by
  intro s slot rest hin hreset
  refine ⟨_, step_of_resetsBlock hin hreset, rfl, rfl, fun hidle => ?idle, fun a ha => ?outside,
    fun hwf k hk hfit => ?inside⟩
  case idle => exact abortedMemory_idle { s with inputs := rest } hidle
  case outside => exact abortedMemory_read_outside { s with inputs := rest } a ha
  case inside => exact abortedMemory_read_inside (s := { s with inputs := rest }) hwf k hk hfit

end Sys2Proof.Machine
end

section
/-! The register port: reads, writes, and the interrupt output. -/

namespace Sys2Proof.Machine

/-! ## The words software reads -/

/-- CTRL reads as the value of IE (R23). -/
theorem ctrlWord_eq_ofNat (ie : Bool) : ctrlWord ie = BitVec.ofNat 32 ie.toNat := by
  cases ie <;> rfl

/-- STATUS reads as the sum of its fields at their bits (R24). -/
theorem statusWord_eq_ofNat (f : Status) :
    statusWord f = BitVec.ofNat 32 (f.busy.toNat + 2 * f.done.toNat + 4 * f.ovr.toNat
      + 256 * f.err.toNat) := by
  obtain ⟨busy, done, ovr, err⟩ := f
  revert busy done ovr err
  decide

theorem ctrlWord_getLsbD_zero (ie : Bool) : (ctrlWord ie).getLsbD 0 = ie := by
  cases ie <;> rfl

theorem statusWord_getLsbD_one (f : Status) : (statusWord f).getLsbD 1 = f.done := by
  obtain ⟨busy, done, ovr, err⟩ := f
  revert busy done ovr err
  decide

/-- Settles O40: bit 0 of CTRL is IE, and bit 1 of STATUS is DONE. -/
theorem interruptFollowsDone : Obligations.InterruptFollowsDone := by
  intro s
  have hctrl : (readOffset s 0x004).getLsbD 0 = s.ie := ctrlWord_getLsbD_zero s.ie
  have hstatus : (readOffset s 0x008).getLsbD 1 = s.status.done := statusWord_getLsbD_one s.status
  rw [hctrl, hstatus, State.irq, Bool.and_eq_true]

/-! ## Reads -/

/-- No register stands past IN_USED (R20, R38). -/
theorem regAt_reserved {offset : Nat} (h : 0x02C ≤ offset) : regAt offset = none := by
  unfold regAt
  repeat rw [if_neg (by omega)]

theorem step_regRead {s : State} {rest : List Slot} {offset size : Nat}
    (hin : s.inputs = hostSlot (.regRead offset size) :: rest)
    (hform : size = 4 ∧ offset % 4 = 0 ∧ offset < 0x1000) :
    step s = .next { s with inputs := rest, reply := .reg (readOffset s offset) } := by
  rw [step_of_hostSlot hin]
  exact if_pos (decide_eq_true hform)

theorem step_regRead_form {s : State} {rest : List Slot} {offset size : Nat}
    (hin : s.inputs = hostSlot (.regRead offset size) :: rest)
    (hform : ¬ (size = 4 ∧ offset % 4 = 0 ∧ offset < 0x1000)) :
    step s = .refused .registerAccessForm := by
  rw [step_of_hostSlot hin]
  exact if_neg (by simpa [registerAccessServed] using hform)

/-- Settles O33: each listed offset is its register's and reads as that register's word; the
reserved offsets read 0. -/
theorem registerReadValues : Obligations.RegisterReadValues := by
  intro s rest offset v hin hcase
  have hread : offset % 4 = 0 ∧ offset < 0x1000 ∧ readOffset s offset = v := by
    obtain hlisted | ⟨h4, hlo, hhi, rfl⟩ := hcase
    · simp only [List.mem_cons, List.not_mem_nil, or_false, Prod.mk.injEq] at hlisted
      obtain ⟨rfl, rfl⟩ | ⟨rfl, rfl⟩ | ⟨rfl, rfl⟩ | ⟨rfl, rfl⟩ | ⟨rfl, rfl⟩ | ⟨rfl, rfl⟩ |
        ⟨rfl, rfl⟩ | ⟨rfl, rfl⟩ | ⟨rfl, rfl⟩ | ⟨rfl, rfl⟩ | ⟨rfl, rfl⟩ := hlisted
      case inr.inl => exact ⟨rfl, by decide, ctrlWord_eq_ofNat s.ie⟩
      case inr.inr.inl => exact ⟨rfl, by decide, statusWord_eq_ofNat s.status⟩
      all_goals exact ⟨rfl, by decide, rfl⟩
    · exact ⟨h4, by omega, by rw [readOffset, regAt_reserved hlo]⟩
  obtain ⟨h4, hwindow, rfl⟩ := hread
  exact step_regRead hin ⟨rfl, h4, hwindow⟩

/-! ## Writes -/

theorem writeOffset_reserved {offset : Nat} (h : 0x02C ≤ offset) (v : Word) (s : State) :
    writeOffset offset v s = s := by
  rw [writeOffset, regAt_reserved h]

/-- A served write to any register but CMD. -/
theorem step_regWrite {s : State} {rest : List Slot} {offset : Nat} {v : Word}
    (hin : s.inputs = hostSlot (.regWrite offset 4 v) :: rest) (h4 : offset % 4 = 0)
    (hwindow : offset < 0x1000) (hcmd : offset ≠ 0x00C) :
    step s = .next (writeOffset offset v { s with inputs := rest }) := by
  rw [step_of_hostSlot hin]
  exact hostRegWrite_other offset v _ h4 hwindow hcmd

/-- A CMD write while idle: the acceptance, or the refusal of the launch (R29, R58). -/
theorem hostRegWrite_cmd_idle (v : Word) {s : State} (hidle : s.status.busy = false) :
    hostRegWrite 0x00C 4 v s =
      if declaredPlain (acceptCommand v s) then .next (acceptCommand v s)
      else .refused .regionNotPlainMemory := by
  have hwrite : writeOffset 0x00C v s = acceptCommand v s :=
    if_neg (Bool.eq_false_iff.mp hidle)
  rw [hostRegWrite_served _ _ _ rfl (by decide), launchRefused_idle v s hidle, hwrite]
  cases declaredPlain (acceptCommand v s) <;> rfl

/-- A CMD write while a command is active (R27, R211). -/
theorem hostRegWrite_cmd_busy (v : Word) {s : State} (hbusy : s.status.busy = true) :
    hostRegWrite 0x00C 4 v s = .next { s with status := overrunStatus s.status } := by
  have hwrite : writeOffset 0x00C v s = { s with status := overrunStatus s.status } :=
    if_pos hbusy
  rw [hostRegWrite_served _ _ _ rfl (by decide), launchRefused_busy _ v s hbusy, hwrite]
  rfl

theorem step_cmdWrite_idle {s : State} {rest : List Slot} {v : Word}
    (hin : s.inputs = hostSlot (.regWrite 0x00C 4 v) :: rest) (hidle : s.status.busy = false) :
    step s = if declaredPlain (acceptCommand v { s with inputs := rest }) then
        .next (acceptCommand v { s with inputs := rest })
      else .refused .regionNotPlainMemory :=
  (step_of_hostSlot hin).trans (hostRegWrite_cmd_idle v hidle)

theorem step_cmdWrite_busy {s : State} {rest : List Slot} {v : Word}
    (hin : s.inputs = hostSlot (.regWrite 0x00C 4 v) :: rest) (hbusy : s.status.busy = true) :
    step s = .next { s with inputs := rest, status := overrunStatus s.status } :=
  (step_of_hostSlot hin).trans (hostRegWrite_cmd_busy v hbusy)

/-- Settles O34: the form is checked before all else, and of the writes of the served form only a
launch can be refused. -/
theorem registerAccessFormIsChecked : Obligations.RegisterAccessFormIsChecked := by
  intro s rest offset size v
  refine ⟨fun hin => ⟨fun hform => ⟨_, step_regRead hin hform⟩, step_regRead_form hin⟩,
    fun hin => ⟨?served, fun hform => ?unserved⟩⟩
  case served =>
    rintro ⟨rfl, h4, hwindow⟩
    refine ⟨?_, fun hcmd => ⟨_, step_regWrite hin h4 hwindow hcmd⟩⟩
    rw [step_of_hostSlot hin, hostAccess, hostRegWrite_served _ _ _ h4 hwindow]
    split <;> simp
  case unserved =>
    rw [step_of_hostSlot hin]
    exact hostRegWrite_form offset size v _ hform

/-- Settles O35: idle, by whether the regions of the accepted command are plain memory; busy, the
overrun. -/
theorem commandWriteAcceptsOrOverruns : Obligations.CommandWriteAcceptsOrOverruns := by
  intro s t rest v hin
  refine ⟨fun hidle ht => ?idle, fun hbusy => ?busy⟩
  case busy => rw [step_cmdWrite_busy hin hbusy, overrunStatus_eq, hbusy]
  obtain rfl : t = acceptCommand v { s with inputs := rest } := ht
  rw [step_cmdWrite_idle hin hidle]
  refine ⟨fun ⟨hsource, hwrite⟩ => if_pos ?_, fun hdevice => if_neg ?_⟩
  · exact Bool.and_eq_true_iff.mpr ⟨hsource, hwrite⟩
  · rw [Bool.not_eq_true]
    exact Bool.and_eq_false_iff.mpr hdevice

/-- A field cleared by writing a one (R24). -/
theorem and_not_eq_ite (field bit : Bool) : (field && !bit) = if bit then false else field := by
  cases bit <;> simp

/-- Settles O36: the STATUS write is the acknowledge. -/
theorem statusWriteClearsByOne : Obligations.StatusWriteClearsByOne := by
  intro s rest v hin
  have hack : writeOffset 0x008 v { s with inputs := rest }
      = acknowledge v { s with inputs := rest } := rfl
  rw [step_regWrite hin rfl (by decide) (by decide), hack, acknowledge, writeStatus_eq,
    and_not_eq_ite, and_not_eq_ite]

/-- Settles O37: a CTRL write without SRST takes the branch that stores IE. -/
theorem controlWriteStoresEnable : Obligations.ControlWriteStoresEnable := by
  intro s rest v hin hsrst
  have hctrl : writeOffset 0x004 v { s with inputs := rest }
      = { s with inputs := rest, ie := v.getLsbD 0 } :=
    if_neg (Bool.eq_false_iff.mp hsrst)
  rw [step_regWrite hin rfl (by decide) (by decide), hctrl]

/-- Settles O38: each operand offset is its register's, and the write touches `regs` alone. -/
theorem operandWriteChangesOneRegister : Obligations.OperandWriteChangesOneRegister := by
  intro s rest offset v hin
  refine ⟨?_, ?_, ?_, ?_, ?_⟩ <;> rintro rfl <;>
    exact step_regWrite hin rfl (by decide) (by decide)

/-- Settles O39: the read-only registers and the reserved offsets keep the state as it is. -/
theorem readOnlyWritesAreIgnored : Obligations.ReadOnlyWritesAreIgnored := by
  intro s rest offset v hin hcase
  obtain rfl | rfl | rfl | ⟨h4, hlo, hhi⟩ := hcase
  case inr.inr.inr =>
    rw [step_regWrite hin h4 (by omega) (by omega), writeOffset_reserved hlo]
  all_goals exact step_regWrite hin rfl (by decide) (by decide)

/-! ## Launches -/

/-- A region with a byte of the register window or of a device is not plain memory (R58). -/
theorem plainMemory_eq_false {p : Platform} {r : Region} {a : Nat} (ha : regionHas r a = true)
    (hdevice : regionHas ⟨regBase p, Config.windowSize⟩ a = true ∨
      ∃ d ∈ p.devices, regionHas d a = true) : plainMemory p r = false := by
  have hsize : r.size ≠ 0 := by
    have := of_decide_eq_true ha
    omega
  have hmeet : ∀ q, regionHas q a = true → regionsMeet r q = true :=
    fun q hq => (regionsMeet_iff r q).mpr ⟨a, ha, hq⟩
  obtain hwindow | ⟨d, hd, hda⟩ := hdevice
  · simp [plainMemory, hsize, hmeet _ hwindow]
  · have hall : (p.devices.all fun d => !regionsMeet r d) = false :=
      List.all_eq_false.mpr ⟨d, hd, by simp [hmeet d hda]⟩
    simp [plainMemory, hsize, hall]

theorem declaredPlain_acceptCommand {v : Word} {i : Instr} (s : State) (hi : decode v = .ok i) :
    declaredPlain (acceptCommand v s) =
      (plainMemory s.platform (sourceRegion s.regs i) &&
        plainMemory s.platform (writeRegion s.regs i)) := by
  rw [declaredPlain, activeSource_of_command (s := acceptCommand v s) rfl hi,
    activeWrite_of_command (s := acceptCommand v s) rfl hi]
  rfl

/-- A launch is refused when one of the regions its command declares, by the operands the host sees,
is not plain memory. -/
theorem step_launch_refused {s : State} {rest : List Slot} {v : Word} {i : Instr}
    (hin : s.inputs = hostSlot (.regWrite 0x00C 4 v) :: rest) (hidle : s.status.busy = false)
    (hi : decode v = .ok i)
    (hdevice : plainMemory s.platform (sourceRegion s.regs i) = false ∨
      plainMemory s.platform (writeRegion s.regs i) = false) :
    step s = .refused .regionNotPlainMemory := by
  have hplain : declaredPlain (acceptCommand v { s with inputs := rest }) = false :=
    (declaredPlain_acceptCommand _ hi).trans (Bool.and_eq_false_iff.mpr hdevice)
  rw [step_cmdWrite_idle hin hidle, hplain]
  rfl

/-- Settles O59: by the row of the command, the byte lies in its source or its write region, which
is then not plain memory. -/
theorem launchOnDeviceIsRefused : Obligations.LaunchOnDeviceIsRefused := by
  intro s rest v i w dz ver a hin hidle hi hdevice
  have hdevice : regionHas ⟨regBase s.platform, Config.windowSize⟩ a = true ∨
      ∃ d ∈ s.platform.devices, regionHas d a = true :=
    hdevice.imp decide_eq_true fun ⟨d, hd, hda⟩ => ⟨d, hd, decide_eq_true hda⟩
  refine ⟨fun hrow hlo hhi => step_launch_refused hin hidle hi (.inl ?source),
    fun hrow hlo hhi => step_launch_refused hin hidle hi (.inr ?dest)⟩
  case source =>
    have hregion : sourceRegion s.regs i = sourceOf s.regs := by
      obtain rfl | rfl | rfl | rfl | rfl | rfl | rfl | rfl := hrow <;> rfl
    rw [hregion]
    exact plainMemory_eq_false (decide_eq_true ⟨hlo, hhi⟩) hdevice
  case dest =>
    have hregion : writeRegion s.regs i = destOf s.regs := by
      obtain rfl | rfl | rfl | rfl | rfl | rfl := hrow <;> rfl
    rw [hregion]
    exact plainMemory_eq_false (decide_eq_true ⟨hlo, hhi⟩) hdevice

end Sys2Proof.Machine
end

section
/-! The fetch: the engine runs the word the state holds, and a placed word is that word. -/

namespace Sys2Proof.Machine

/-- Settles O5: the engine's turn at an active command, with or without a slot to use up. -/
theorem stepRunsDecodedCommand : Obligations.StepRunsDecodedCommand := by
  intro s i hbusy hi _
  refine ⟨fun hin => ?_, fun rest hin => ?_⟩
  · rw [step_of_no_input hin, engineTurn_of_command hbusy hi]
  · rw [step_of_engineSlot hin]
    exact engineTurn_of_command hbusy hi

/-- The step after a word is placed is the engine's, at that word accepted. -/
theorem step_withFetchWord (s : State) (w : Nat) :
    step (s.withFetchWord 32 w) = engineTurn (acceptCommand (BitVec.ofNat 32 (w % 2 ^ 32)) s) := by
  cases hin : s.inputs with
  | nil =>
    have hplaced : (s.withFetchWord 32 w).inputs = [] := by
      simp [State.withFetchWord, engineFirst, hin]
    rw [step_of_no_input hplaced]
    simp [State.withFetchWord, engineFirst, hin, acceptCommand]
  | cons slot rest =>
    have hplaced : (s.withFetchWord 32 w).inputs = engineSlot :: s.inputs := by
      simp [State.withFetchWord, engineFirst, hin]
    rw [step_of_engineSlot hplaced]
    rfl

theorem decode_of_decodeTableWord {w : Nat} {i : Instr} (h : decodeTableWord 32 w = some i) :
    decode (BitVec.ofNat 32 (w % 2 ^ 32)) = .ok i := by
  unfold decodeTableWord at h
  split at h
  · rename_i j hj
    rw [hj, Option.some.inj h]
  · cases h

/-- Settles O6: the state that runs the word is `s` with the word accepted. -/
theorem placedWordRunsNext : Obligations.PlacedWordRunsNext := by
  intro s w i hi
  refine ⟨acceptCommand (BitVec.ofNat 32 (w % 2 ^ 32)) s, ?_, rfl, rfl, ?_, rfl, rfl, rfl⟩
  · rw [step_withFetchWord]
    exact engineTurn_of_command rfl (decode_of_decodeTableWord hi)
  · exact BitVec.eq_of_toNat_eq (by simp)

end Sys2Proof.Machine
end

section
/-! Served and plain memory, byte by byte, and the commands that stop for want of it. -/

namespace Sys2Proof.Machine

/-! ## Regions by their bytes -/

/-- Two regions are disjoint exactly when no byte of the first lies in the second. -/
theorem regionsMeet_eq_false_iff (r q : Region) :
    regionsMeet r q = false ↔
      ∀ a, r.base ≤ a → a < r.base + r.size → ¬ (q.base ≤ a ∧ a < q.base + q.size) := by
  rw [← Bool.not_eq_true, regionsMeet_iff]
  simp [regionHas]

theorem regionsMeet_of_size_zero {r : Region} (h : r.size = 0) (q : Region) :
    regionsMeet r q = false := by
  simp [regionsMeet, overlap, h]

/-- A region is served when it meets no unserved range; an empty one meets none. -/
theorem served_iff (p : Platform) (r : Region) :
    served p r = true ↔ ∀ u ∈ p.unserved, regionsMeet r u = false := by
  by_cases h : r.size = 0
  · simp [served, h, regionsMeet_of_size_zero h]
  · simp [served, h]

/-- A region is plain memory when it meets neither the register window nor a device. -/
theorem plainMemory_iff (p : Platform) (r : Region) :
    plainMemory p r = true ↔
      regionsMeet r ⟨regBase p, Config.windowSize⟩ = false ∧
        ∀ d ∈ p.devices, regionsMeet r d = false := by
  by_cases h : r.size = 0
  · simp [plainMemory, h, regionsMeet_of_size_zero h]
  · simp [plainMemory, h]

/-- Settles O25: each range of the platform is disjoint from the region, byte by byte. -/
theorem servedAndPlainByByte : Obligations.ServedAndPlainByByte := by
  intro p r
  rw [served_iff, plainMemory_iff]
  simp only [regionsMeet_eq_false_iff]
  constructor
  · exact ⟨fun h a hlo hhi u hu => h u hu a hlo hhi, fun h u hu a hlo hhi => h a hlo hhi u hu⟩
  · exact ⟨fun ⟨hwindow, hdevices⟩ a hlo hhi =>
        ⟨hwindow a hlo hhi, fun d hd => hdevices d hd a hlo hhi⟩,
      fun h => ⟨fun a hlo hhi => (h a hlo hhi).1, fun d hd a hlo hhi => (h a hlo hhi).2 d hd⟩⟩

/-! ## Commands on a device or the register window -/

theorem encodeCommand_device (keys : List Word → List Byte) {w : BitVec 3} (dz : Bool) {s : State}
    (h : encodeAccepted w s.op)
    (hdevice : plainMemory s.platform (sourceOf s.op) = false ∨
      plainMemory s.platform (destOf s.op) = false) :
    encodeCommand keys w dz s = .refused .regionNotPlainMemory := by
  rw [encodeCommand_accepted keys w dz s h, if_pos (by simpa using hdevice)]

theorem decodeCommand_device (rc : List Byte → Nat → BitVec 2) {w : BitVec 3} (dz : Bool)
    {s : State} (h : decodeAccepted w s.op)
    (hdevice : plainMemory s.platform (sourceOf s.op) = false ∨
      plainMemory s.platform (destOf s.op) = false) :
    decodeCommand rc w dz s = .refused .regionNotPlainMemory := by
  rw [decodeCommand_accepted rc w dz s h, if_pos (by simpa using hdevice)]

theorem transformCommand_device (f : (n : Nat) → List (BitVec n) → List (BitVec n)) {w : BitVec 3}
    {s : State} (h : transformAccepted w s.op)
    (hdevice : plainMemory s.platform (sourceOf s.op) = false) :
    transformCommand f w s = .refused .regionNotPlainMemory := by
  rw [transformCommand_accepted f w s h, if_pos (by simpa using hdevice)]

/-- Settles O23: an accepted command tests its declared regions before any memory access. -/
theorem commandOnDeviceIsRefused : Obligations.CommandOnDeviceIsRefused := by
  intro w dz s
  exact ⟨fun h hd => ⟨encodeCommand_device _ dz h hd, encodeCommand_device _ dz h hd⟩,
    fun h hd => ⟨decodeCommand_device _ dz h hd, decodeCommand_device _ dz h hd⟩,
    fun h hd => ⟨transformCommand_device _ h hd, transformCommand_device _ h hd⟩⟩

end Sys2Proof.Machine
end

section
/-! The host's accesses to data memory. -/

namespace Sys2Proof.Machine

/-- A region that does not wrap (R54). -/
theorem wraps_eq_false {r : Region} (h : r.base + r.size ≤ 2 ^ 32) : wraps r = false := by
  rw [wraps, Bool.not_eq_false']
  exact decide_eq_true h

/-- A host write that meets no active region, on served plain memory, stores its bytes. -/
theorem hostMemWrite_stores {addr : Word} {bs : List Byte} {s : State}
    (hsource : regionsMeet ⟨addr.toNat, bs.length⟩ (activeSource s) = false)
    (hwrite : regionsMeet ⟨addr.toNat, bs.length⟩ (activeWrite s) = false)
    (hfits : addr.toNat + bs.length ≤ 2 ^ 32)
    (hmem : onServedMemory s.platform ⟨addr.toNat, bs.length⟩) :
    hostMemWrite addr bs s = .next (storeBytes addr.toNat bs s) := by
  have hwraps : wraps ⟨addr.toNat, bs.length⟩ = false := wraps_eq_false hfits
  simp [hostMemWrite, hsource, hwrite, hwraps, hmem.1, hmem.2]

/-- A host read of served plain memory answers `hostByte` at each address. -/
theorem hostMemRead_answers {addr : Word} {n : Nat} {s : State} (hfits : addr.toNat + n ≤ 2 ^ 32)
    (hmem : onServedMemory s.platform ⟨addr.toNat, n⟩) :
    hostMemRead addr n s = .next { s with
      reply := .mem ((List.range n).map fun k => hostByte s (addr.toNat + k) k)
      draws := s.draws + n } := by
  have hwraps : wraps ⟨addr.toNat, n⟩ = false := wraps_eq_false hfits
  simp [hostMemRead, hwraps, hmem.1, hmem.2]

/-- A region with no byte of its own in `q`, counted from its base, does not meet `q`. -/
theorem regionsMeet_eq_false_of_offsets {a n : Nat} {q : Region}
    (h : ∀ k < n, regionHas q (a + k) = false) : regionsMeet ⟨a, n⟩ q = false := by
  rw [regionsMeet_eq_false_iff]
  intro x hlo hhi
  have hx := h (x - a) (Nat.sub_lt_left_of_lt_add hlo hhi)
  rw [Nat.add_sub_cancel' hlo] at hx
  exact of_decide_eq_false hx

/-- Settles O44: the write meets no active region, so it reaches the store. -/
theorem hostWriteStoresItsBytes : Obligations.HostWriteStoresItsBytes := by
  intro s rest addr bs hin hfree hfits hmem
  refine ⟨storeBytes addr.toNat bs { s with inputs := rest }, ?_, rfl, fun hwf k hk => ?_,
    fun a ha => read_writeBytes_outside s.mem addr.toNat bs a ha⟩
  · rw [step_of_hostSlot hin]
    exact hostMemWrite_stores (regionsMeet_eq_false_of_offsets fun k hk => (hfree k hk).1)
      (regionsMeet_eq_false_of_offsets fun k hk => (hfree k hk).2) hfits hmem
  · exact read_writeBytes_inside s.mem addr.toNat bs hwf hfits k hk

/-- Settles O45: each byte of the reply is `hostByte`, by whether it lies in the write region. -/
theorem hostReadReturnsBytes : Obligations.HostReadReturnsBytes := by
  intro s rest addr n hin hfits hmem
  refine ⟨_, _, (step_of_hostSlot hin).trans (hostMemRead_answers hfits hmem), by simp,
    fun k hk houtside => ?_, fun k hk hinside => ?_⟩
  · have hbyte : hostByte { s with inputs := rest } (addr.toNat + k) k
        = s.mem.read (addr.toNat + k) := if_neg (Bool.eq_false_iff.mp houtside)
    simp [hk, hbyte]
  · have hbyte : hostByte { s with inputs := rest } (addr.toNat + k) k
        = Config.freeByte (s.draws + k) := if_pos hinside
    simp [hk, hbyte]

end Sys2Proof.Machine
end

section
/-! What changes data memory, and which of its bytes. -/

namespace Sys2Proof.Machine

/-! ## Who writes -/

/-- The engine changes memory only where it completes the active command with success. -/
theorem engineTurn_mem_ne {s t : State} (h : engineTurn s = .next t) (hne : t.mem ≠ s.mem) :
    s.status.busy = true ∧ t.status.busy = false ∧ t.status.err = 0#4 := by
  obtain ⟨-, rfl⟩ | ⟨hb, i, -, hexec⟩ | ⟨-, e, -, rfl⟩ := engineTurn_next h
  · exact absurd rfl hne
  · obtain ⟨e, rfl⟩ | ⟨a, bs, r, u, -, rfl⟩ := exec_next hexec
    · exact absurd rfl hne
    · exact ⟨hb, rfl, rfl⟩
  · exact absurd rfl hne

/-- A reset changes memory only where it aborts a command. -/
theorem resetBlock_mem_ne {s : State} (hne : (resetBlock s).mem ≠ s.mem) :
    s.status.busy = true := by
  by_contra hidle
  exact hne (abortedMemory_idle s (Bool.not_eq_true _ ▸ hidle))

/-- A register write changes memory only as a reset that aborts a command. -/
theorem writeEffect_mem_ne {v : Word} {offset : Nat} {s t : State} (h : WriteEffect v s offset t)
    (hne : t.mem ≠ s.mem) :
    s.status.busy = true ∧ t.status.busy = false ∧ t.status.err = 0#4 := by
  cases h with
  | reset => exact ⟨resetBlock_mem_ne hne, rfl, rfl⟩
  | _ => exact absurd rfl hne

/-- Settles O57: by whose turn the step is. -/
theorem memoryChangesOnlyByItsWriters : Obligations.MemoryChangesOnlyByItsWriters := by
  intro s t hstep hne
  obtain ⟨u, rest, rfl, ⟨-, hengine⟩ | ⟨a, hin, hhost⟩ | ⟨a, -, rfl⟩⟩ := step_next hstep
  · exact .inl (engineTurn_mem_ne (s := { s with inputs := rest }) hengine hne)
  · cases hhost with
    | regRead => exact absurd rfl hne
    | regWrite offset v _ hwrite =>
      exact .inl (writeEffect_mem_ne (s := { s with inputs := rest }) hwrite hne)
    | memRead => exact absurd rfl hne
    | memWrite addr bs => exact .inr ⟨addr, bs, rest, hin⟩
  · exact .inl ⟨resetBlock_mem_ne hne, rfl, rfl⟩

/-! ## The bytes a command may change -/

/-- What an encode may change: RESULT bytes from DST_ADDR. -/
theorem encodeCommand_mem_frame {keys : List Word → List Byte} {w : BitVec 3} {dz : Bool}
    {s t : State} (h : encodeCommand keys w dz s = .next t) {a : Nat}
    (ha : a < s.op.dstAddr.toNat ∨ s.op.dstAddr.toNat + t.result.toNat ≤ a) :
    t.mem.read a = s.mem.read a := by
  obtain ⟨e, rfl⟩ | ⟨-, hcap, rfl⟩ := encodeCommand_next h
  · rfl
  · have hresult := Nat.mod_eq_of_lt (hcap.trans_lt s.op.dstCap.isLt)
    rw [complete_result, BitVec.toNat_ofNat, hresult] at ha
    exact read_writeBytes_outside _ _ _ _ ha

/-- The bytes a decode stores: W for each of COUNT elements. -/
theorem decoded_stored_length (rc : List Byte → Nat → BitVec 2) (w : BitVec 3) (dz : Bool)
    (s : State) :
    (elementBytes (widthBytes w) (decodedElements w dz (decoderCodes rc s) s)).length
      = widthBytes w * s.op.count.toNat := by
  rw [elementBytes_length, decoderElements_length, splitValues_length, decoderCodes_length]

/-- What a decode may change: RESULT bytes from DST_ADDR. -/
theorem decodeCommand_mem_frame {rc : List Byte → Nat → BitVec 2} {w : BitVec 3} {dz : Bool}
    {s t : State} (h : decodeCommand rc w dz s = .next t) {a : Nat}
    (ha : a < s.op.dstAddr.toNat ∨ s.op.dstAddr.toNat + t.result.toNat ≤ a) :
    t.mem.read a = s.mem.read a := by
  obtain ⟨e, rfl⟩ | ⟨⟨-, -, -, -, hcap, -⟩, -, rfl⟩ := decodeCommand_next h
  · rfl
  · have hresult := Nat.mod_eq_of_lt (hcap.trans_lt s.op.dstCap.isLt)
    rw [complete_result, BitVec.toNat_ofNat, hresult] at ha
    refine read_writeBytes_outside _ _ _ _ ?_
    rwa [decoded_stored_length]

/-- What an in-place transform may change: its source region. -/
theorem transformCommand_mem_frame {f : (n : Nat) → List (BitVec n) → List (BitVec n)}
    (hf : ∀ n xs, (f n xs).length = xs.length) {w : BitVec 3} {s t : State}
    (h : transformCommand f w s = .next t) {a : Nat}
    (ha : a < s.op.srcAddr.toNat ∨ s.op.srcAddr.toNat + s.op.srcLen.toNat ≤ a) :
    t.mem.read a = s.mem.read a := by
  obtain ⟨e, rfl⟩ | ⟨⟨hsize, -⟩, rfl⟩ := transformCommand_next h
  · rfl
  · refine read_writeBytes_outside _ _ _ _ ?_
    rwa [transform_stored_length w s hsize _ (by rw [hf, readElements_length])]

/-- A command that completes with an error writes no memory. -/
theorem exec_error_mem {i : Instr} {s t : State} (h : exec i s = .next t)
    (herr : t.status.err ≠ 0#4) : t.mem = s.mem := by
  obtain ⟨e, rfl⟩ | ⟨a, bs, r, u, -, rfl⟩ := exec_next h
  · rfl
  · exact absurd rfl herr

theorem execBound_mem {w : BitVec 3} {s t : State} (h : execBound w s = .next t) :
    t.mem = s.mem := by
  obtain ⟨e, rfl⟩ | ⟨-, -, rfl⟩ := execBound_next h <;> rfl

theorem execEncUnknown_mem (ver : BitVec 4) {w : BitVec 3} (dz : Bool) {s t : State}
    (h : execEncUnknown ver w dz s = .next t) : t.mem = s.mem := by
  unfold execEncUnknown at h
  split at h <;> cases h <;> rfl

theorem execDecUnknown_mem (ver : BitVec 4) {w : BitVec 3} (dz : Bool) {s t : State}
    (h : execDecUnknown ver w dz s = .next t) : t.mem = s.mem := by
  unfold execDecUnknown at h
  split at h <;> cases h <;> rfl

/-- Settles O49: the frame of each command's shared operation. -/
theorem commandMemoryFrame : Obligations.CommandMemoryFrame := by
  intro s t w dz ver
  refine ⟨fun i h herr => exec_error_mem h herr, fun i hrow h => ?noMemory,
    fun i hrow h a ha => ?stream, fun i hrow h a ha => ?inPlace⟩
  case noMemory =>
    obtain rfl | rfl | rfl | rfl := hrow
    · cases h; rfl
    · exact execBound_mem h
    · exact execEncUnknown_mem ver dz h
    · exact execDecUnknown_mem ver dz h
  case stream =>
    obtain rfl | rfl | rfl | rfl := hrow
    · exact encodeCommand_mem_frame h ha
    · exact encodeCommand_mem_frame h ha
    · exact decodeCommand_mem_frame h ha
    · exact decodeCommand_mem_frame h ha
  case inPlace =>
    obtain rfl | rfl := hrow
    · exact transformCommand_mem_frame (fun _ => forwardTransform_length) h ha
    · exact transformCommand_mem_frame (fun _ => inverseTransform_length) h ha

end Sys2Proof.Machine
end

section
/-! The key codes of a stream in memory: both key readings give the spec's codes, and the commands
that reach an unserved byte fault. -/

namespace Sys2Proof.Machine

/-! ## Codes read from key bytes -/

/-- Digit `k` in base 256 of the number of a byte list is its byte `k`. -/
theorem leNat_div_pow_mod (bs : List Byte) (k : Nat) (h : k < bs.length) :
    leNat bs / 256 ^ k % 256 = bs[k].toNat := by
  induction bs generalizing k with
  | nil => simp at h
  | cons b bs ih =>
    have hb := b.isLt
    cases k with
    | zero => simp only [leNat, Nat.pow_zero, Nat.div_one, List.getElem_cons_zero]; omega
    | succ k =>
      have hrest : leNat (b :: bs) / 256 = leNat bs := by simp only [leNat]; omega
      rw [Nat.pow_succ', ← Nat.div_div_eq_div_mul, hrest, List.getElem_cons_succ]
      exact ih k (Nat.lt_of_succ_lt_succ h)

/-- A two-bit digit of a number lies in its byte. -/
theorem div_pow_four_mod (x : Nat) {r : Nat} (h : r < 4) :
    x / 4 ^ r % 4 = x % 256 / 4 ^ r % 4 := by
  obtain rfl | rfl | rfl | rfl : r = 0 ∨ r = 1 ∨ r = 2 ∨ r = 3 := by omega
  all_goals norm_num <;> omega

/-- A key reading that gives the codes of R112 on the key bytes of every stream in memory. -/
def ReadsStreamCodes (rc : List Byte → Nat → BitVec 2) : Prop :=
  ∀ (m : Memory) (a n i : Nat), i / 4 < n → rc (readBytes m a n) i = streamCode m a i

theorem readCodeV0_readsStreamCodes : ReadsStreamCodes readCodeV0 := by
  intro m a n i hi
  have hlen : i / 4 < (readBytes m a n).length := by rwa [readBytes_length]
  apply BitVec.eq_of_toNat_eq
  rw [readCodeV0, List.getD_eq_getElem _ _ hlen, readBytes_getElem, streamCode,
    BitVec.extractLsb'_toNat, BitVec.toNat_ofNat, Nat.shiftRight_eq_div_pow, Nat.pow_mul]

theorem readCodeV1_readsStreamCodes : ReadsStreamCodes readCodeV1 := by
  intro m a n i hi
  have hlen : i / 4 < (readBytes m a n).length := by rwa [readBytes_length]
  have hshift : 2 ^ (2 * i) = 256 ^ (i / 4) * 4 ^ (i % 4) := by
    rw [show (256 : Nat) = 4 ^ 4 by rfl, ← Nat.pow_mul, ← Nat.pow_add, Nat.div_add_mod, Nat.pow_mul]
  apply BitVec.eq_of_toNat_eq
  rw [readCodeV1, streamCode, BitVec.toNat_ofNat, BitVec.toNat_ofNat, Nat.shiftRight_eq_div_pow,
    hshift, ← Nat.div_div_eq_div_mul]
  calc leNat (readBytes m a n) / 256 ^ (i / 4) / 4 ^ (i % 4) % 4
      = leNat (readBytes m a n) / 256 ^ (i / 4) % 256 / 4 ^ (i % 4) % 4 :=
        div_pow_four_mod _ (Nat.mod_lt i (by decide))
    _ = (m.read (a + i / 4)).toNat / 4 ^ (i % 4) % 4 := by
        rw [leNat_div_pow_mod _ _ hlen, readBytes_getElem]

theorem div_four_lt_keybytes {i n : Nat} (h : i < n) : i / 4 < keybytes n := by
  unfold keybytes
  omega

/-- The codes of a decode are the spec's codes of the stream at its source. -/
theorem decoderCodes_eq {rc : List Byte → Nat → BitVec 2} (hrc : ReadsStreamCodes rc) (s : State) :
    decoderCodes rc s
      = (List.range s.op.count.toNat).map (streamCode s.mem s.op.srcAddr.toNat) := by
  refine List.map_congr_left fun i hi => hrc _ _ _ _ ?_
  exact div_four_lt_keybytes (List.mem_range.mp hi)

/-- The offset of value i of a stream with the given codes: past the keys and the data before it. -/
theorem streamOffset_codes (code : Nat → BitVec 2) (n i : Nat) :
    streamOffset (fun j => (code j).toNat + 1) n i
      = keybytes n + dataLength ((List.range i).map code) := by
  induction i with
  | zero => rfl
  | succ i ih =>
    simp only [streamOffset, ih, dataLength, List.range_succ, List.map_append, List.map_cons,
      List.map_nil, List.sum_append, List.sum_singleton, codeLen]
    omega

/-- The bytes of the stream a decode reads: its keys and the data its codes imply. -/
theorem decodeOffset_eq {rc : List Byte → Nat → BitVec 2} (hrc : ReadsStreamCodes rc) (s : State) :
    decodeOffset s.mem s.op.srcAddr.toNat s.op.count.toNat s.op.count.toNat
      = keybytes s.op.count.toNat + dataLength (decoderCodes rc s) := by
  rw [decodeOffset, streamOffset_codes, decoderCodes_eq hrc]

/-! ## Unserved accesses -/

/-- Two adjoining served regions are one. -/
theorem served_append {p : Platform} {a n k : Nat} (h1 : served p ⟨a, n⟩ = true)
    (h2 : served p ⟨a + n, k⟩ = true) : served p ⟨a, n + k⟩ = true := by
  simp only [served_iff, regionsMeet_eq_false_iff] at h1 h2 ⊢
  intro u hu x hlo hhi
  by_cases hx : x < a + n
  · exact h1 u hu x hlo hx
  · exact h2 u hu x (not_lt.mp hx) (by omega)

theorem encodeCommand_unserved {keys : List Word → List Byte}
    (hk : ∀ vs, (keys vs).length = keybytes vs.length) {w : BitVec 3} {dz : Bool} {s : State}
    (h : encodeAccepted w s.op) (hsource : plainMemory s.platform (sourceOf s.op) = true)
    (hdest : plainMemory s.platform (destOf s.op) = true)
    (hun : served s.platform (sourceOf s.op) = false ∨
      (encodeLength s.mem s.op.srcAddr.toNat w.toNat dz (sourceCount w s.op) ≤ s.op.dstCap.toNat ∧
        served s.platform ⟨s.op.dstAddr.toNat,
          encodeLength s.mem s.op.srcAddr.toNat w.toNat dz (sourceCount w s.op)⟩ = false)) :
    encodeCommand keys w dz s = .fault .engineBusError := by
  rw [encodeCommand_accepted keys w dz s h, hsource, hdest, if_neg (by decide)]
  split
  · rfl
  · rename_i hserved
    obtain hun | ⟨hcap, hun⟩ := hun
    · simp [hun] at hserved
    · rw [writeStream, encodedStream_length keys hk, if_neg (not_lt.mpr hcap), hun]
      rfl

theorem decodeCommand_unserved {rc : List Byte → Nat → BitVec 2} (hrc : ReadsStreamCodes rc)
    {w : BitVec 3} {dz : Bool} {s : State} (h : decodeAccepted w s.op)
    (hsource : plainMemory s.platform (sourceOf s.op) = true)
    (hdest : plainMemory s.platform (destOf s.op) = true)
    (hun : served s.platform ⟨s.op.srcAddr.toNat, keybytes s.op.count.toNat⟩ = false ∨
      (decodeOffset s.mem s.op.srcAddr.toNat s.op.count.toNat s.op.count.toNat
          ≤ s.op.srcLen.toNat ∧
        (served s.platform ⟨s.op.srcAddr.toNat,
            decodeOffset s.mem s.op.srcAddr.toNat s.op.count.toNat s.op.count.toNat⟩ = false ∨
          served s.platform ⟨s.op.dstAddr.toNat, w.toNat * s.op.count.toNat⟩ = false))) :
    decodeCommand rc w dz s = .fault .engineBusError := by
  rw [decodeOffset_eq hrc] at hun
  rw [decodeCommand_accepted rc w dz s h, hsource, hdest, if_neg (by decide)]
  split
  · rfl
  · rename_i hkeys
    rw [Bool.not_eq_true, Bool.not_eq_false'] at hkeys
    obtain hun | ⟨hlen, hun⟩ := hun
    · exact absurd (hkeys.symm.trans hun) (by decide)
    · have hdata : served s.platform ⟨s.op.srcAddr.toNat + keybytes s.op.count.toNat,
            dataLength (decoderCodes rc s)⟩ = false ∨
          served s.platform ⟨s.op.dstAddr.toNat, w.toNat * s.op.count.toNat⟩ = false := by
        refine hun.imp_left fun hstream => Bool.eq_false_iff.mpr fun hdata => ?_
        exact absurd ((served_append hkeys hdata).symm.trans hstream) (by decide)
      rw [readStream, if_neg (not_lt.mpr hlen), if_pos (by simpa using hdata)]

theorem transformCommand_unserved (f : (n : Nat) → List (BitVec n) → List (BitVec n)) {w : BitVec 3}
    {s : State} (h : transformAccepted w s.op)
    (hplain : plainMemory s.platform (sourceOf s.op) = true)
    (hun : served s.platform (sourceOf s.op) = false) :
    transformCommand f w s = .fault .engineBusError := by
  rw [transformCommand_accepted f w s h, hplain, hun]
  rfl

/-- Settles O24: both versions write a stream of one length and read the same codes. -/
theorem unservedAccessFaults : Obligations.UnservedAccessFaults := by
  intro w dz s
  exact ⟨fun h hs hd hun => ⟨encodeCommand_unserved keyStreamV0_length h hs hd hun,
      encodeCommand_unserved keyStreamV1_length h hs hd hun⟩,
    fun h hs hd hun => ⟨decodeCommand_unserved readCodeV0_readsStreamCodes h hs hd hun,
      decodeCommand_unserved readCodeV1_readsStreamCodes h hs hd hun⟩,
    fun h hp hun => ⟨transformCommand_unserved _ h hp hun, transformCommand_unserved _ h hp hun⟩⟩

end Sys2Proof.Machine
end

section
/-! What a command reads: over memories that agree on the bytes it reads it answers the same. -/

namespace Sys2Proof.Machine

/-- Two next states report the same, and hold the same bytes where RESULT bytes from `a` lie. -/
def SameReport (a : Nat) (t t' : State) : Prop :=
  t'.status = t.status ∧ t'.result = t.result ∧ t'.inUsed = t.inUsed ∧
    ∀ x, a ≤ x → x < a + t.result.toNat → t'.mem.read x = t.mem.read x

/-- A next state of the one answer has a counterpart in the other that reports the same. -/
def AnswersAlike (a : Nat) (x y : StepResult) : Prop :=
  ∀ t, x = .next t → ∃ t', y = .next t' ∧ SameReport a t t'

theorem answersAlike_ite {a : Nat} {c : Prop} [Decidable c] {x y x' y' : StepResult}
    (hpos : AnswersAlike a x x') (hneg : ¬ c → AnswersAlike a y y') :
    AnswersAlike a (if c then x else y) (if c then x' else y') := by
  split
  · exact hpos
  · rename_i h; exact hneg h

/-- A check that ends both in an error, which reports nothing of memory. -/
theorem answersAlike_check {a : Nat} {c : Prop} [Decidable c] {e : ErrorCause} {s : State}
    {m : Memory} {y y' : StepResult} (h : ¬ c → AnswersAlike a y y') :
    AnswersAlike a (if c then .next (raiseError e s) else y)
      (if c then .next (raiseError e { s with mem := m }) else y') := by
  refine answersAlike_ite ?_ h
  rintro t ⟨⟩
  exact ⟨_, rfl, rfl, rfl, rfl, fun x hlo hhi => absurd hhi (not_lt.mpr hlo)⟩

/-- A check that stops both with a fault. -/
theorem answersAlike_fault {a : Nat} {c : Prop} [Decidable c] {f : Fault} {y y' : StepResult}
    (h : ¬ c → AnswersAlike a y y') :
    AnswersAlike a (if c then .fault f else y) (if c then .fault f else y') :=
  answersAlike_ite (fun _ hstop => nomatch hstop) h

/-- A check that refuses both. -/
theorem answersAlike_refusal {a : Nat} {c : Prop} [Decidable c] {q : Refusal} {y y' : StepResult}
    (h : ¬ c → AnswersAlike a y y') :
    AnswersAlike a (if c then .refused q else y) (if c then .refused q else y') :=
  answersAlike_ite (fun _ hstop => nomatch hstop) h

/-- The same bytes stored in two memories read the same. -/
theorem answersAlike_store {a : Nat} {bs : List Byte} (used : Nat) {s : State} {m : Memory}
    (hs : s.mem.wf) (hm : m.wf) (hfits : a + bs.length ≤ Config.addressSpace) :
    AnswersAlike a (.next (complete bs.length used (storeBytes a bs s)))
      (.next (complete bs.length used (storeBytes a bs { s with mem := m }))) := by
  rintro t ⟨⟩
  refine ⟨_, rfl, rfl, rfl, rfl, fun x hlo hhi => ?_⟩
  have hlen : x - a < bs.length := by
    have hmod := Nat.mod_le bs.length (2 ^ 32)
    rw [complete_result, BitVec.toNat_ofNat] at hhi
    omega
  obtain ⟨k, rfl⟩ := Nat.exists_eq_add_of_le hlo
  rw [Nat.add_sub_cancel_left] at hlen
  exact (read_writeBytes_inside m a bs hm hfits k hlen).trans
    (read_writeBytes_inside s.mem a bs hs hfits k hlen).symm

/-! ## Encode -/

/-- The values an encode packs depend on its source region alone. -/
theorem encoderInput_congr (w : BitVec 3) (dz : Bool) {s : State} {m : Memory}
    (h : ∀ a, s.op.srcAddr.toNat ≤ a → a < s.op.srcAddr.toNat + s.op.srcLen.toNat →
      m.read a = s.mem.read a) :
    encoderInput w dz { s with mem := m } = encoderInput w dz s := by
  refine congrArg (encoderValues _ dz) (readElements_congr _ _ _ _ _ fun a hlo hhi => ?_)
  have hwhole := Nat.div_mul_le_self s.op.srcLen.toNat (widthBytes w)
  exact h a hlo (hhi.trans_le (Nat.add_le_add_left hwhole _))

/-- An encode answers alike over memories that agree on its source region. -/
theorem encodeCommand_answersAlike (keys : List Word → List Byte) (w : BitVec 3) (dz : Bool)
    {s : State} {m : Memory} (hs : s.mem.wf) (hm : m.wf)
    (h : ∀ a, s.op.srcAddr.toNat ≤ a → a < s.op.srcAddr.toNat + s.op.srcLen.toNat →
      m.read a = s.mem.read a) :
    AnswersAlike s.op.dstAddr.toNat (encodeCommand keys w dz s)
      (encodeCommand keys w dz { s with mem := m }) := by
  unfold encodeCommand writeStream
  rw [encoderInput_congr w dz h]
  refine answersAlike_check fun _ => answersAlike_check fun hwraps => answersAlike_check fun _ =>
    answersAlike_refusal fun _ => answersAlike_fault fun _ => answersAlike_check fun hcap =>
    answersAlike_fault fun _ => ?_
  rw [Bool.or_eq_true, not_or, Bool.not_eq_true, Bool.not_eq_true] at hwraps
  have hdest : destFits s.op := (wraps_dest_iff s.op).mp hwraps.2
  exact answersAlike_store _ hs hm (by unfold Config.addressSpace; omega)

/-- Settles O51: both versions pack the same values over both memories. -/
theorem encodeReadsOnlyItsSource : Obligations.EncodeReadsOnlyItsSource := by
  intro w dz s t m i hrow hs hm hagree hexec
  obtain rfl | rfl := hrow
  · exact encodeCommand_answersAlike _ w dz hs hm hagree t hexec
  · exact encodeCommand_answersAlike _ w dz hs hm hagree t hexec

/-! ## Decode -/

/-- The codes of a decode depend on its key bytes alone. -/
theorem decoderCodes_congr (rc : List Byte → Nat → BitVec 2) {s : State} {m : Memory}
    (h : ∀ a, s.op.srcAddr.toNat ≤ a → a < s.op.srcAddr.toNat + keybytes s.op.count.toNat →
      m.read a = s.mem.read a) :
    decoderCodes rc { s with mem := m } = decoderCodes rc s := by
  have hkeys := readBytes_congr m s.mem _ _ h
  simp only [decoderCodes, hkeys]

/-- A decode answers alike over memories that give the same codes and the same data bytes. -/
theorem decodeCommand_answersAlike {rc : List Byte → Nat → BitVec 2} (w : BitVec 3) (dz : Bool)
    {s : State} {m : Memory} (hs : s.mem.wf) (hm : m.wf)
    (hcodes : decoderCodes rc { s with mem := m } = decoderCodes rc s)
    (hdata : readBytes m (s.op.srcAddr.toNat + keybytes s.op.count.toNat)
        (dataLength (decoderCodes rc s))
      = readBytes s.mem (s.op.srcAddr.toNat + keybytes s.op.count.toNat)
        (dataLength (decoderCodes rc s))) :
    AnswersAlike s.op.dstAddr.toNat (decodeCommand rc w dz s)
      (decodeCommand rc w dz { s with mem := m }) := by
  unfold decodeCommand readStream
  simp only [hcodes, hdata]
  refine answersAlike_check fun _ => answersAlike_check fun hwraps => answersAlike_check fun _ =>
    answersAlike_check fun hcap => answersAlike_check fun _ => answersAlike_refusal fun _ =>
    answersAlike_fault fun _ => answersAlike_check fun _ => answersAlike_fault fun _ => ?_
  rw [Bool.or_eq_true, not_or, Bool.not_eq_true, Bool.not_eq_true] at hwraps
  have hdest : destFits s.op := (wraps_dest_iff s.op).mp hwraps.2
  have hlen := decoded_stored_length rc w dz s
  have hstore := answersAlike_store (keybytes s.op.count.toNat + dataLength (decoderCodes rc s))
    hs hm (a := s.op.dstAddr.toNat)
    (bs := elementBytes (widthBytes w) (decodedElements w dz (decoderCodes rc s) s))
    (by unfold Config.addressSpace; omega)
  rwa [hlen] at hstore

/-- A decode that succeeds has consumed its keys and the data its codes imply. -/
theorem decodeCommand_success_inUsed {rc : List Byte → Nat → BitVec 2} {w : BitVec 3} {dz : Bool}
    {s t : State} (h : decodeCommand rc w dz s = .next t) (hok : t.status.err = 0#4) :
    t.inUsed.toNat = keybytes s.op.count.toNat + dataLength (decoderCodes rc s) := by
  obtain ⟨e, rfl⟩ | ⟨-, hlen, rfl⟩ := decodeCommand_next h
  · exact absurd hok (errorCode_ne_zero e)
  · rw [complete_inUsed, BitVec.toNat_ofNat]
    exact Nat.mod_eq_of_lt (hlen.trans_lt s.op.srcLen.isLt)

/-- A successful decode answers alike over memories that agree on the stream it consumed. -/
theorem decodeCommand_reads_stream {rc : List Byte → Nat → BitVec 2} {w : BitVec 3} {dz : Bool}
    {s t : State} {m : Memory} (hs : s.mem.wf) (hm : m.wf)
    (hexec : decodeCommand rc w dz s = .next t) (hok : t.status.err = 0#4)
    (h : ∀ a, s.op.srcAddr.toNat ≤ a → a < s.op.srcAddr.toNat + t.inUsed.toNat →
      m.read a = s.mem.read a) :
    ∃ t', decodeCommand rc w dz { s with mem := m } = .next t' ∧
      SameReport s.op.dstAddr.toNat t t' := by
  rw [decodeCommand_success_inUsed hexec hok] at h
  have hcodes : decoderCodes rc { s with mem := m } = decoderCodes rc s :=
    decoderCodes_congr rc fun a hlo hhi => h a hlo (by omega)
  refine decodeCommand_answersAlike w dz hs hm hcodes ?_ t hexec
  exact readBytes_congr _ _ _ _ fun a hlo hhi => h a (by omega) (by omega)

/-- Settles O52: the keys and the data consumed fix the codes and the values. -/
theorem decodeReadsOnlyItsStream : Obligations.DecodeReadsOnlyItsStream := by
  intro w dz s t m i hrow hs hm hexec hok hagree
  obtain rfl | rfl := hrow
  · exact decodeCommand_reads_stream hs hm hexec hok hagree
  · exact decodeCommand_reads_stream hs hm hexec hok hagree

end Sys2Proof.Machine
end

section
/-! The command word: its value by its fields, the decoding of a word put together from fields, and
the two round trips. -/

namespace Sys2Proof

/-! ## The fields of a word as numbers -/

theorem toNat_opField (w : Word) : (opField w).toNat = w.toNat % 16 := by
  rw [opField, BitVec.extractLsb'_toNat, Nat.shiftRight_eq_div_pow]
  omega

theorem toNat_verField (w : Word) : (verField w).toNat = w.toNat / 16 % 16 := by
  rw [verField, BitVec.extractLsb'_toNat, Nat.shiftRight_eq_div_pow]

theorem toNat_widthField (w : Word) : (widthField w).toNat = w.toNat / 256 % 8 := by
  rw [widthField, BitVec.extractLsb'_toNat, Nat.shiftRight_eq_div_pow]

theorem toNat_dzField (w : Word) : (dzField w).toNat = w.toNat / 2048 % 2 :=
  Nat.toNat_testBit w.toNat 11

theorem toNat_reservedField (w : Word) : (reservedField w).toNat = w.toNat / 4096 := by
  rw [reservedField, BitVec.extractLsb'_toNat, Nat.shiftRight_eq_div_pow]
  omega

/-! ## Words put together from fields -/

theorem toNat_append_eq_add {m n : Nat} (x : BitVec m) (y : BitVec n) :
    (x ++ y).toNat = 2 ^ n * x.toNat + y.toNat := by
  rw [BitVec.toNat_append, ← Nat.shiftLeft_add_eq_or_of_lt y.isLt, Nat.shiftLeft_eq, Nat.mul_comm]

theorem toNat_packFields (op ver : BitVec 4) (w : BitVec 3) (dz : Bool) :
    (packFields op ver w dz).toNat
      = op.toNat + 16 * ver.toNat + 256 * w.toNat + 2048 * dz.toNat := by
  simp only [packFields, toNat_append_eq_add, BitVec.toNat_ofBool, BitVec.toNat_ofNat]
  omega

section
variable (op ver : BitVec 4) (w : BitVec 3) (dz : Bool)

@[simp] theorem opField_packFields : opField (packFields op ver w dz) = op := by
  apply BitVec.eq_of_toNat_eq
  rw [toNat_opField, toNat_packFields]
  omega

@[simp] theorem verField_packFields : verField (packFields op ver w dz) = ver := by
  apply BitVec.eq_of_toNat_eq
  rw [toNat_verField, toNat_packFields]
  omega

@[simp] theorem widthField_packFields : widthField (packFields op ver w dz) = w := by
  apply BitVec.eq_of_toNat_eq
  rw [toNat_widthField, toNat_packFields]
  omega

@[simp] theorem dzField_packFields : dzField (packFields op ver w dz) = dz := by
  have hdz : (dzField (packFields op ver w dz)).toNat = dz.toNat := by
    rw [toNat_dzField, toNat_packFields]
    have := dz.toNat_lt
    omega
  simpa only [Bool.ofNat_toNat] using congrArg Bool.ofNat hdz

@[simp] theorem reservedField_packFields : reservedField (packFields op ver w dz) = 0#20 := by
  apply BitVec.eq_of_toNat_eq
  rw [toNat_reservedField, toNat_packFields, BitVec.toNat_ofNat]
  have := dz.toNat_lt
  omega

end

/-- A word whose reserved field is 0 is put together from its other four fields. -/
theorem eq_packFields {w : Word} (h : reservedField w = 0#20) :
    w = packFields (opField w) (verField w) (widthField w) (dzField w) := by
  apply BitVec.eq_of_toNat_eq
  have hreserved : w.toNat / 4096 = 0 := by rw [← toNat_reservedField, h]; rfl
  rw [toNat_packFields, toNat_opField, toNat_verField, toNat_widthField, toNat_dzField]
  omega

/-! ## Decoding by fields: the clauses of R77 -/

theorem decode_reservedBits {w : Word} (h : reservedField w ≠ 0#20) :
    decode w = .error .reservedBits := if_pos h

section
variable {op : BitVec 4} (ver : BitVec 4) (w : BitVec 3) (dz : Bool)

theorem decode_op_nop (h : op.toNat = 0) :
    decode (packFields op ver w dz) =
      if ver = 0#4 ∧ w = 0#3 ∧ dz = false then .ok .nop else .error .nopField := by
  obtain rfl : op = 0#4 := BitVec.eq_of_toNat_eq h
  simp [decode]

theorem decode_op_enc (h : op.toNat = 1) :
    decode (packFields op ver w dz) = .ok (decodeEnc ver w dz) := by
  obtain rfl : op = 1#4 := BitVec.eq_of_toNat_eq h
  simp [decode]

theorem decode_op_dec (h : op.toNat = 2) :
    decode (packFields op ver w dz) = .ok (decodeDec ver w dz) := by
  obtain rfl : op = 2#4 := BitVec.eq_of_toNat_eq h
  simp [decode]

theorem decode_op_bound (h : op.toNat = 3) :
    decode (packFields op ver w dz) = widthOnly ver dz (.bound w) := by
  obtain rfl : op = 3#4 := BitVec.eq_of_toNat_eq h
  simp [decode]

theorem decode_op_dzf (h : op.toNat = 4) :
    decode (packFields op ver w dz) = widthOnly ver dz (.dzf w) := by
  obtain rfl : op = 4#4 := BitVec.eq_of_toNat_eq h
  simp [decode]

theorem decode_op_dzi (h : op.toNat = 5) :
    decode (packFields op ver w dz) = widthOnly ver dz (.dzi w) := by
  obtain rfl : op = 5#4 := BitVec.eq_of_toNat_eq h
  simp [decode]

theorem decode_op_reserved (h : 6 ≤ op.toNat) :
    decode (packFields op ver w dz) = .error .reservedOpcode := by
  have hne : ∀ k : BitVec 4, k.toNat < 6 → op ≠ k := by
    rintro k hk rfl
    omega
  simp [decode, hne]

end

/-- OP selects one of six operations, or is reserved (R76). -/
theorem opcode_cases (op : BitVec 4) :
    op = 0#4 ∨ op = 1#4 ∨ op = 2#4 ∨ op = 3#4 ∨ op = 4#4 ∨ op = 5#4 ∨ 6 ≤ op.toNat := by
  revert op
  decide

/-! ## The version and the unused fields -/

section
variable {ver : BitVec 4} (w : BitVec 3) (dz : Bool)

theorem decodeEnc_v0 (h : ver.toNat = 0) : decodeEnc ver w dz = .encV0 w dz :=
  if_pos (BitVec.eq_of_toNat_eq h)

theorem decodeEnc_v1 (h : ver.toNat = 1) : decodeEnc ver w dz = .encV1 w dz := by
  obtain rfl : ver = 1#4 := BitVec.eq_of_toNat_eq h
  rfl

theorem decodeEnc_unknown (h : 2 ≤ ver.toNat) : decodeEnc ver w dz = .encUnknown ver w dz := by
  rw [decodeEnc, if_neg, if_neg] <;> rintro rfl <;> exact absurd h (by decide)

theorem decodeDec_v0 (h : ver.toNat = 0) : decodeDec ver w dz = .decV0 w dz :=
  if_pos (BitVec.eq_of_toNat_eq h)

theorem decodeDec_v1 (h : ver.toNat = 1) : decodeDec ver w dz = .decV1 w dz := by
  obtain rfl : ver = 1#4 := BitVec.eq_of_toNat_eq h
  rfl

theorem decodeDec_unknown (h : 2 ≤ ver.toNat) : decodeDec ver w dz = .decUnknown ver w dz := by
  rw [decodeDec, if_neg, if_neg] <;> rintro rfl <;> exact absurd h (by decide)

end

/-- VER is 0, 1 or names no version (R72). -/
theorem version_cases (ver : BitVec 4) : ver = 0#4 ∨ ver = 1#4 ∨ 2 ≤ ver.toNat := by
  revert ver
  decide

theorem encode_decodeEnc (ver : BitVec 4) (w : BitVec 3) (dz : Bool) :
    encode (decodeEnc ver w dz) = packFields 1#4 ver w dz ∧
      wellFormed (decodeEnc ver w dz) = true := by
  obtain rfl | rfl | h := version_cases ver
  · exact ⟨rfl, rfl⟩
  · exact ⟨rfl, rfl⟩
  · rw [decodeEnc_unknown w dz h]
    exact ⟨rfl, decide_eq_true h⟩

theorem encode_decodeDec (ver : BitVec 4) (w : BitVec 3) (dz : Bool) :
    encode (decodeDec ver w dz) = packFields 2#4 ver w dz ∧
      wellFormed (decodeDec ver w dz) = true := by
  obtain rfl | rfl | h := version_cases ver
  · exact ⟨rfl, rfl⟩
  · exact ⟨rfl, rfl⟩
  · rw [decodeDec_unknown w dz h]
    exact ⟨rfl, decide_eq_true h⟩

theorem widthOnly_eq_ok_iff {ver : BitVec 4} {dz : Bool} {i j : Instr} :
    widthOnly ver dz i = .ok j ↔ ver = 0#4 ∧ dz = false ∧ i = j := by
  unfold widthOnly
  split
  · rename_i hfields
    simp [hfields]
  · rename_i hfields
    simp [← and_assoc, hfields]

theorem widthOnly_unused {ver : BitVec 4} {dz : Bool} (h : ¬ (ver = 0#4 ∧ dz = false)) (i : Instr) :
    widthOnly ver dz i = .error .unusedField := if_neg h

/-! ## The round trips -/

/-- Settles O1, by the command: its word is put together from its fields, and R77's clause for its
OP reads them back. -/
theorem decodeOfEncodeIsIdentity : Obligations.DecodeOfEncodeIsIdentity := by
  intro i hwf
  cases i with
  | nop => exact decode_op_nop 0#4 0#3 false rfl
  | encV0 w dz => exact decode_op_enc 0#4 w dz rfl
  | encV1 w dz => exact decode_op_enc 1#4 w dz rfl
  | decV0 w dz => exact decode_op_dec 0#4 w dz rfl
  | decV1 w dz => exact decode_op_dec 1#4 w dz rfl
  | bound w => exact decode_op_bound 0#4 w false rfl
  | dzf w => exact decode_op_dzf 0#4 w false rfl
  | dzi w => exact decode_op_dzi 0#4 w false rfl
  | encUnknown ver w dz =>
    rw [encode, decode_op_enc ver w dz rfl, decodeEnc_unknown w dz (of_decide_eq_true hwf)]
  | decUnknown ver w dz =>
    rw [encode, decode_op_dec ver w dz rfl, decodeDec_unknown w dz (of_decide_eq_true hwf)]

/-- A legal word's reserved field is 0 (R75). -/
theorem reservedField_of_decode {w : Word} {i : Instr} (h : decode w = .ok i) :
    reservedField w = 0#20 := by
  by_contra hne
  rw [decode_reservedBits hne] at h
  cases h

/-- The round trip of a word put together from fields, by its OP. -/
theorem encode_of_decode_packFields {op ver : BitVec 4} {w : BitVec 3} {dz : Bool} {i : Instr}
    (h : decode (packFields op ver w dz) = .ok i) :
    encode i = packFields op ver w dz ∧ wellFormed i = true := by
  obtain rfl | rfl | rfl | rfl | rfl | rfl | hop := opcode_cases op
  · rw [decode_op_nop ver w dz rfl] at h
    split at h
    · rename_i hzero
      obtain ⟨rfl, rfl, rfl⟩ := hzero
      cases h
      exact ⟨rfl, rfl⟩
    · cases h
  · rw [decode_op_enc ver w dz rfl] at h
    cases h
    exact encode_decodeEnc ver w dz
  · rw [decode_op_dec ver w dz rfl] at h
    cases h
    exact encode_decodeDec ver w dz
  · rw [decode_op_bound ver w dz rfl, widthOnly_eq_ok_iff] at h
    obtain ⟨rfl, rfl, rfl⟩ := h
    exact ⟨rfl, rfl⟩
  · rw [decode_op_dzf ver w dz rfl, widthOnly_eq_ok_iff] at h
    obtain ⟨rfl, rfl, rfl⟩ := h
    exact ⟨rfl, rfl⟩
  · rw [decode_op_dzi ver w dz rfl, widthOnly_eq_ok_iff] at h
    obtain ⟨rfl, rfl, rfl⟩ := h
    exact ⟨rfl, rfl⟩
  · rw [decode_op_reserved ver w dz hop] at h
    cases h

/-- Settles O2: a legal word is put together from its fields, and its OP's clause of R77 keeps all
of them. -/
theorem encodeOfDecodeIsIdentity : Obligations.EncodeOfDecodeIsIdentity := by
  intro w i h
  have hw := eq_packFields (reservedField_of_decode h)
  rw [hw] at h ⊢
  exact encode_of_decode_packFields h

/-- The two round trips in one. -/
theorem decode_eq_ok_iff {w : Word} {i : Instr} :
    decode w = .ok i ↔ encode i = w ∧ wellFormed i = true := by
  constructor
  · exact encodeOfDecodeIsIdentity w i
  · rintro ⟨rfl, hwf⟩
    exact decodeOfEncodeIsIdentity i hwf

/-- Settles O4: each of the words is the encoding of a well-formed command. -/
theorem specWordsDecode : Obligations.SpecWordsDecode := by
  simp only [Obligations.SpecWordsDecode, decode_eq_ok_iff]
  decide

/-- Settles O3: the sum fixes the reserved field, and where that is 0 the word; the rest is R77's
clauses. -/
theorem decodeFollowsFieldTable : Obligations.DecodeFollowsFieldTable := by
  intro op ver w dz rsv word hword
  have hdz := dz.toNat_lt
  have hrsv : reservedField word = rsv := by
    apply BitVec.eq_of_toNat_eq
    rw [toNat_reservedField, hword]
    omega
  refine ⟨fun h => ⟨_, decode_reservedBits (hrsv ▸ h)⟩, ?_⟩
  rintro rfl
  obtain rfl : word = packFields op ver w dz := by
    apply BitVec.eq_of_toNat_eq
    rw [hword, toNat_packFields]
    rfl
  have henc (ho : op.toNat = 1) := decode_op_enc ver w dz ho
  have hdec (ho : op.toNat = 2) := decode_op_dec ver w dz ho
  refine ⟨fun ho hv hw hd => ?nop, fun ho hne => ⟨.nopField, ?nopField⟩,
    fun ho hv => by rw [henc ho, decodeEnc_v0 w dz hv],
    fun ho hv => by rw [henc ho, decodeEnc_v1 w dz hv],
    fun ho hv => by rw [henc ho, decodeEnc_unknown w dz hv],
    fun ho hv => by rw [hdec ho, decodeDec_v0 w dz hv],
    fun ho hv => by rw [hdec ho, decodeDec_v1 w dz hv],
    fun ho hv => by rw [hdec ho, decodeDec_unknown w dz hv],
    fun ho hv hd => (decode_op_bound ver w dz ho).trans (widthOnly_eq_ok_iff.mpr ⟨hv, hd, rfl⟩),
    fun ho hv hd => (decode_op_dzf ver w dz ho).trans (widthOnly_eq_ok_iff.mpr ⟨hv, hd, rfl⟩),
    fun ho hv hd => (decode_op_dzi ver w dz ho).trans (widthOnly_eq_ok_iff.mpr ⟨hv, hd, rfl⟩),
    fun hlo hhi hne => ⟨.unusedField, ?unusedField⟩,
    fun ho => ⟨.reservedOpcode, decode_op_reserved ver w dz ho⟩⟩
  case nop => rw [decode_op_nop ver w dz ho, if_pos ⟨hv, hw, hd⟩]
  case nopField => rw [decode_op_nop ver w dz ho, if_neg hne]
  case unusedField =>
    obtain ho | ho | ho : op.toNat = 3 ∨ op.toNat = 4 ∨ op.toNat = 5 := by omega
    · rw [decode_op_bound ver w dz ho, widthOnly_unused hne]
    · rw [decode_op_dzf ver w dz ho, widthOnly_unused hne]
    · rw [decode_op_dzi ver w dz ho, widthOnly_unused hne]

end Sys2Proof
end

section
/-! Completion: an illegal word completes with its error, and every command on served plain memory
completes. -/

namespace Sys2Proof.Machine

/-! ## Illegal words -/

theorem engineTurn_of_illegal {s : State} {e : DecodeError} (hb : s.status.busy = true)
    (he : decode s.cmd = .error e) : engineTurn s = .next (raiseError .illegalCommand s) := by
  simp [engineTurn, fetch, hb, he]

/-- Settles O7: the engine's turn is the error completion, on the state left by the slot. -/
theorem illegalWordCompletesWithError : Obligations.IllegalWordCompletesWithError := by
  intro s e hb he
  constructor
  · intro hinputs
    rw [step_of_no_input hinputs, engineTurn_of_illegal hb he]
    rfl
  · intro rest hinputs
    rw [step_of_engineSlot hinputs, engineTurn_of_illegal (s := { s with inputs := rest }) hb he]
    rfl

/-! ## Answers that complete -/

/-- The answer is a next state with BUSY 0, DONE 1 and in ERR a code of the table (R172). -/
def Completes (r : StepResult) : Prop :=
  ∃ t, r = .next t ∧ t.status.busy = false ∧ t.status.done = true ∧ t.status.err.toNat ≤ 8

theorem completes_raiseError (e : ErrorCause) (s : State) : Completes (.next (raiseError e s)) :=
  ⟨_, rfl, rfl, rfl, errorCode_le e⟩

theorem completes_complete (result used : Nat) (s : State) :
    Completes (.next (complete result used s)) :=
  ⟨_, rfl, rfl, rfl, Nat.zero_le 8⟩

/-- A check of the order of R174 completes when what follows its passing does. -/
theorem completes_check {c : Prop} [Decidable c] {e : ErrorCause} {s : State} {r : StepResult}
    (h : ¬ c → Completes r) : Completes (if c then .next (raiseError e s) else r) := by
  split
  · exact completes_raiseError e s
  · rename_i hc
    exact h hc

/-- A stop on memory that is not plain or not served is not taken when its condition is false. -/
theorem completes_unless_stopped {b : Bool} {stop r : StepResult} (hb : b = false)
    (h : Completes r) : Completes (if b then stop else r) := by
  rwa [hb]

/-! ## Commands on served plain memory -/

theorem writeStream_completes (used : Nat) (out : List Byte) {s : State}
    (hdest : served s.platform (destOf s.op) = true) : Completes (writeStream used out s) := by
  refine completes_check fun hcap => completes_unless_stopped ?_ (completes_complete _ _ _)
  have hwithin : regionWithin ⟨s.op.dstAddr.toNat, out.length⟩ (destOf s.op) :=
    regionWithin_of_le le_rfl (by omega)
  rw [served_within hwithin hdest]
  rfl

theorem encodeCommand_completes (keys : List Word → List Byte) (w : BitVec 3) (dz : Bool)
    {s : State} (hsource : onServedMemory s.platform (sourceOf s.op))
    (hdest : onServedMemory s.platform (destOf s.op)) : Completes (encodeCommand keys w dz s) := by
  obtain ⟨hsourcePlain, hsourceServed⟩ := hsource
  obtain ⟨hdestPlain, hdestServed⟩ := hdest
  refine completes_check fun _ => completes_check fun _ => completes_check fun _ => ?_
  refine completes_unless_stopped (by rw [hsourcePlain, hdestPlain]; rfl) ?_
  refine completes_unless_stopped (by rw [hsourceServed]; rfl) ?_
  exact writeStream_completes _ _ hdestServed

/-- The data bytes lie in the source when the stream does, the elements in the destination. -/
theorem readStream_completes {w : BitVec 3} (dz : Bool) (codes : List (BitVec 2)) {s : State}
    (hsource : served s.platform (sourceOf s.op) = true)
    (hdest : served s.platform (destOf s.op) = true)
    (hcap : widthBytes w * s.op.count.toNat ≤ s.op.dstCap.toNat) :
    Completes (readStream w dz codes s) := by
  refine completes_check fun hlen => completes_unless_stopped ?_ (completes_complete _ _ _)
  have hdata : regionWithin
      ⟨s.op.srcAddr.toNat + keybytes s.op.count.toNat, dataLength codes⟩ (sourceOf s.op) :=
    regionWithin_of_le (by omega) (by omega)
  have helements : regionWithin
      ⟨s.op.dstAddr.toNat, widthBytes w * s.op.count.toNat⟩ (destOf s.op) :=
    regionWithin_of_le le_rfl (by omega)
  rw [served_within hdata hsource, served_within helements hdest]
  rfl

theorem decodeCommand_completes (rc : List Byte → Nat → BitVec 2) (w : BitVec 3) (dz : Bool)
    {s : State} (hsource : onServedMemory s.platform (sourceOf s.op))
    (hdest : onServedMemory s.platform (destOf s.op)) : Completes (decodeCommand rc w dz s) := by
  obtain ⟨hsourcePlain, hsourceServed⟩ := hsource
  obtain ⟨hdestPlain, hdestServed⟩ := hdest
  refine completes_check fun _ => completes_check fun _ => completes_check fun _ =>
    completes_check fun hcap => completes_check fun hkeys => ?_
  have hwithin : regionWithin ⟨s.op.srcAddr.toNat, keybytes s.op.count.toNat⟩ (sourceOf s.op) :=
    regionWithin_of_le le_rfl (by omega)
  refine completes_unless_stopped (by rw [hsourcePlain, hdestPlain]; rfl) ?_
  refine completes_unless_stopped (by rw [served_within hwithin hsourceServed]; rfl) ?_
  exact readStream_completes dz _ hsourceServed hdestServed (by omega)

theorem transformCommand_completes (f : (n : Nat) → List (BitVec n) → List (BitVec n))
    (w : BitVec 3) {s : State} (hsource : onServedMemory s.platform (sourceOf s.op)) :
    Completes (transformCommand f w s) := by
  obtain ⟨hplain, hserved⟩ := hsource
  refine completes_check fun _ => completes_check fun _ => ?_
  refine completes_unless_stopped (by rw [hplain]; rfl) ?_
  exact completes_unless_stopped (by rw [hserved]; rfl) (completes_complete _ _ _)

/-- Every command completes when the regions it declares are served plain memory. -/
theorem exec_completes {i : Instr} {s : State}
    (hsource : onServedMemory s.platform (sourceRegion s.op i))
    (hwrite : onServedMemory s.platform (writeRegion s.op i)) : Completes (exec i s) := by
  cases i with
  | nop => exact completes_complete 0 0 s
  | encV0 w dz => exact encodeCommand_completes keyStreamV0 w dz hsource hwrite
  | encV1 w dz => exact encodeCommand_completes keyStreamV1 w dz hsource hwrite
  | decV0 w dz => exact decodeCommand_completes readCodeV0 w dz hsource hwrite
  | decV1 w dz => exact decodeCommand_completes readCodeV1 w dz hsource hwrite
  | bound w => exact completes_check fun _ => completes_check fun _ => completes_complete _ _ s
  | dzf w => exact transformCommand_completes _ w hsource
  | dzi w => exact transformCommand_completes _ w hsource
  | encUnknown ver w dz => exact completes_check fun _ => completes_raiseError .unknownVersion s
  | decUnknown ver w dz => exact completes_check fun _ => completes_raiseError .unknownVersion s

/-- Settles O9: an illegal word completes with its error, and the regions of a decoded command are
those of the active one. -/
theorem activeCommandAlwaysCompletes : Obligations.ActiveCommandAlwaysCompletes := by
  intro s hb hinputs hsource hwrite
  rw [step_of_no_input hinputs]
  cases hcmd : decode s.cmd with
  | error e =>
    rw [engineTurn_of_illegal hb hcmd]
    exact completes_raiseError .illegalCommand s
  | ok i =>
    rw [engineTurn_of_command hb hcmd]
    rw [activeSource_of_command hb hcmd] at hsource
    rw [activeWrite_of_command hb hcmd] at hwrite
    exact exec_completes hsource hwrite

end Sys2Proof.Machine
end

section
/-! The key code of R100: the byte length of a value, and the sizes of a stream by it. -/

namespace Sys2Proof.Machine

/-! ## The key code by its bounds -/

/-- The key code is at most `k` exactly when `k + 1` bytes hold the value (R100). -/
theorem keycode_le_iff (v : Word) (k : Nat) : (keycode v).toNat ≤ k ↔ v.toNat < 256 ^ (k + 1) := by
  have hv := v.isLt
  obtain rfl | rfl | rfl | hk : k = 0 ∨ k = 1 ∨ k = 2 ∨ 3 ≤ k := by omega
  case inr.inr.inr =>
    have hpow : 256 ^ 4 ≤ 256 ^ (k + 1) := Nat.pow_le_pow_right (by decide) (by omega)
    have hcode := (keycode v).isLt
    constructor <;> intro <;> omega
  all_goals
    unfold keycode
    split_ifs <;> simp <;> omega

theorem keylen_eq (v : Word) : keylen v = (keycode v).toNat + 1 := rfl

theorem keylen_le_four (v : Word) : keylen v ≤ 4 := (codeLen_bounds _).2

/-- The bytes kept of a value hold it. -/
theorem lt_pow_keylen (v : Word) : v.toNat < 256 ^ keylen v := (keycode_le_iff v _).mp le_rfl

/-- A value needs four bytes exactly from 2^24 on. -/
theorem keylen_eq_four_iff (v : Word) : keylen v = 4 ↔ 2 ^ 24 ≤ v.toNat := by
  have hthree := keycode_le_iff v 2
  have hfour := keylen_le_four v
  rw [keylen_eq] at hfour ⊢
  omega

/-- Settles O32: both the formula and the table follow from the bounds of each key code. -/
theorem keycodeIsByteLength : Obligations.KeycodeIsByteLength := by
  intro v
  have hformula : (keycode v).toNat = max 0 (Nat.clog 256 (v.toNat + 1) - 1) := by
    refine eq_of_forall_ge_iff fun k => ?_
    rw [keycode_le_iff, max_eq_right (Nat.zero_le _), Nat.sub_le_iff_le_add,
      Nat.clog_le_iff_le_pow (by decide), Nat.succ_le_iff]
  have hzero := keycode_le_iff v 0
  have hone := keycode_le_iff v 1
  have htwo := keycode_le_iff v 2
  have hcode := (keycode v).isLt
  refine ⟨hformula, keylen_eq v, fun h => ?_, fun hlo hhi => ?_, fun hlo hhi => ?_, fun h => ?_⟩
  all_goals
    apply BitVec.eq_of_toNat_eq
    rw [BitVec.toNat_ofNat]
    omega

/-! ## The size of a data stream -/

theorem dataStream_length_le (vs : List Word) : (dataStream vs).length ≤ 4 * vs.length := by
  have hsum := List.sum_le_card_nsmul (vs.map keylen) 4 (by simp [keylen_le_four])
  rw [dataStream_length]
  simpa [Nat.mul_comm] using hsum

/-- A data stream takes four bytes a value exactly when every value needs four. -/
theorem dataStream_length_eq_iff (vs : List Word) :
    (dataStream vs).length = 4 * vs.length ↔ ∀ v ∈ vs, 2 ^ 24 ≤ v.toNat := by
  induction vs with
  | nil => simp [dataStream]
  | cons v vs ih =>
    have hhead := keylen_le_four v
    have htail := dataStream_length_le vs
    have hlen : (dataStream (v :: vs)).length = keylen v + (dataStream vs).length := by
      simp [dataStream_length]
    rw [List.forall_mem_cons, ← ih, ← keylen_eq_four_iff, hlen, List.length_cons]
    omega

end Sys2Proof.Machine
end

section
/-! The two key packings of R103 and R104: both hold the codes as base-4 digits, so they are one
stream, and a key reading gives the codes back. -/

namespace Sys2Proof.Machine

/-! ## Codes by index -/

theorem codeAt_of_lt {vs : List Word} {i : Nat} (h : i < vs.length) :
    codeAt vs i = (keycode vs[i]).toNat := by
  rw [codeAt, List.getElem?_eq_getElem h]

theorem codeAt_of_le {vs : List Word} {i : Nat} (h : vs.length ≤ i) : codeAt vs i = 0 := by
  rw [codeAt, List.getElem?_eq_none h]

theorem codeAt_lt (vs : List Word) (i : Nat) : codeAt vs i < 4 := by
  by_cases h : i < vs.length
  · rw [codeAt_of_lt h]
    exact (keycode vs[i]).isLt
  · rw [codeAt_of_le (not_lt.mp h)]
    decide

/-! ## Key bytes -/

/-- A V0 key byte holds four codes as base-4 digits (R103). -/
theorem toNat_keyByteV0 (vs : List Word) (j : Nat) :
    (keyByteV0 vs j).toNat = codeAt vs (4 * j) + codeAt vs (4 * j + 1) * 4
      + codeAt vs (4 * j + 2) * 16 + codeAt vs (4 * j + 3) * 64 := by
  have h0 := codeAt_lt vs (4 * j)
  have h1 := codeAt_lt vs (4 * j + 1)
  have h2 := codeAt_lt vs (4 * j + 2)
  have h3 := codeAt_lt vs (4 * j + 3)
  simp only [keyByteV0, Nat.shiftLeft_eq, BitVec.toNat_ofNat]
  omega

theorem keyByteV0_digit (vs : List Word) (i : Nat) :
    (keyByteV0 vs (i / 4)).toNat / 4 ^ (i % 4) % 4 = codeAt vs i := by
  have h0 := codeAt_lt vs (4 * (i / 4))
  have h1 := codeAt_lt vs (4 * (i / 4) + 1)
  have h2 := codeAt_lt vs (4 * (i / 4) + 2)
  have h3 := codeAt_lt vs (4 * (i / 4) + 3)
  rw [toNat_keyByteV0]
  conv_rhs => rw [← Nat.div_add_mod i 4]
  obtain hr | hr | hr | hr : i % 4 = 0 ∨ i % 4 = 1 ∨ i % 4 = 2 ∨ i % 4 = 3 := by omega
  all_goals
    rw [hr]
    norm_num
    omega

/-- Digit `i` in base 4 of the V1 bit string is code `i` (R104). -/
theorem keyStringV1_digit (vs : List Word) (i : Nat) :
    keyStringV1 vs / 4 ^ i % 4 = codeAt vs i := by
  induction vs generalizing i with
  | nil => rw [keyStringV1, codeAt_of_le (Nat.zero_le i), Nat.zero_div]
  | cons v vs ih =>
    have hv := (keycode v).isLt
    have hcons : keyStringV1 (v :: vs) = (keycode v).toNat + keyStringV1 vs * 4 := by
      rw [keyStringV1, Nat.shiftLeft_eq]
    cases i with
    | zero =>
      rw [hcons, codeAt_of_lt (by simp), List.getElem_cons_zero, Nat.pow_zero]
      omega
    | succ i =>
      have hrest : keyStringV1 (v :: vs) / 4 = keyStringV1 vs := by omega
      rw [Nat.pow_succ', ← Nat.div_div_eq_div_mul, hrest, ih]
      rfl

/-- The V1 key byte is the V0 one: the byte of the bit string at its offset (R105). -/
theorem ofNat_keyStringV1 (vs : List Word) (j : Nat) :
    BitVec.ofNat 8 (keyStringV1 vs >>> (8 * j)) = keyByteV0 vs j := by
  have hdigit (k : Nat) : keyStringV1 vs / 4 ^ (4 * j) / 4 ^ k % 4 = codeAt vs (4 * j + k) := by
    rw [Nat.div_div_eq_div_mul, ← Nat.pow_add, keyStringV1_digit]
  have h0 := keyStringV1_digit vs (4 * j)
  have h1 := hdigit 1
  have h2 := hdigit 2
  have h3 := hdigit 3
  apply BitVec.eq_of_toNat_eq
  rw [toNat_keyByteV0, BitVec.toNat_ofNat, Nat.shiftRight_eq_div_pow,
    show 2 ^ (8 * j) = 4 ^ (4 * j) by rw [show 8 * j = 2 * (4 * j) by omega, Nat.pow_mul]]
  omega

/-! ## Key streams -/

theorem keyStreamV1_eq_keyStreamV0 : keyStreamV1 = keyStreamV0 := by
  funext vs
  exact List.map_congr_left fun j _ => ofNat_keyStringV1 vs j

theorem keyStreamV0_getElem (vs : List Word) (j : Nat) (h : j < (keyStreamV0 vs).length) :
    (keyStreamV0 vs)[j] = keyByteV0 vs j := by
  simp [keyStreamV0]

/-- Stream bit `b` of a key stream is a bit of code `b / 2` (R104). -/
theorem keyByteV0_getLsbD (vs : List Word) (b : Nat) :
    (keyByteV0 vs (b / 8)).getLsbD (b % 8) = (codeAt vs (b / 2)).testBit (b % 2) := by
  have hbyte : b % 8 < 8 := Nat.mod_lt b (by decide)
  have hbit : b % 2 < 2 := Nat.mod_lt b (by decide)
  rw [← ofNat_keyStringV1, BitVec.getLsbD_ofNat, Nat.testBit_shiftRight, decide_eq_true hbyte,
    Bool.true_and, Nat.div_add_mod, ← keyStringV1_digit, show 4 = 2 ^ 2 by rfl, ← Nat.pow_mul,
    Nat.testBit_mod_two_pow, decide_eq_true hbit, Bool.true_and, ← Nat.shiftRight_eq_div_pow,
    Nat.testBit_shiftRight, Nat.div_add_mod]

/-! ## The versions -/

/-- The two key readings give a decode the same codes (R112, R115). -/
theorem decoderCodes_v1_eq_v0 (s : State) : decoderCodes readCodeV1 s = decoderCodes readCodeV0 s :=
  (decoderCodes_eq readCodeV1_readsStreamCodes s).trans
    (decoderCodes_eq readCodeV0_readsStreamCodes s).symm

theorem execEncV1_eq (w : BitVec 3) (dz : Bool) (s : State) :
    execEncV1 w dz s = execEncV0 w dz s := by
  rw [execEncV1, execEncV0, keyStreamV1_eq_keyStreamV0]

theorem execDecV1_eq (w : BitVec 3) (dz : Bool) (s : State) :
    execDecV1 w dz s = execDecV0 w dz s := by
  simp only [execDecV1, execDecV0, decodeCommand, decoderCodes_v1_eq_v0]

/-- Settles O26: the versions pack the same key bytes and read the same codes. -/
theorem versionsAgree : Obligations.VersionsAgree :=
  fun w dz s => ⟨execEncV1_eq w dz s, execDecV1_eq w dz s⟩

/-- An encode of either version is the encode with the V0 key stream. -/
theorem exec_encode {i : Instr} {w : BitVec 3} {dz : Bool} (h : i = .encV0 w dz ∨ i = .encV1 w dz)
    (s : State) : exec i s = encodeCommand keyStreamV0 w dz s := by
  obtain rfl | rfl := h
  · rfl
  · exact execEncV1_eq w dz s

/-- A decode of either version is the decode with the V0 key reading. -/
theorem exec_decode {i : Instr} {w : BitVec 3} {dz : Bool} (h : i = .decV0 w dz ∨ i = .decV1 w dz)
    (s : State) : exec i s = decodeCommand readCodeV0 w dz s := by
  obtain rfl | rfl := h
  · rfl
  · exact execDecV1_eq w dz s

end Sys2Proof.Machine
end

section
/-! The encode commands: the stream they write byte by byte, its length, and their errors. -/

namespace Sys2Proof.Machine

/-- The stream an encode writes: the versions write the same (`exec_encode`). -/
abbrev outputStream (w : BitVec 3) (dz : Bool) (s : State) : List Byte :=
  encodedStream keyStreamV0 (encoderInput w dz s)

/-- The length the statements give an encode's stream (R102). -/
abbrev outputLength (w : BitVec 3) (dz : Bool) (s : State) : Nat :=
  encodeLength s.mem s.op.srcAddr.toNat w.toNat dz (sourceCount w s.op)

theorem outputStream_length (w : BitVec 3) (dz : Bool) (s : State) :
    (outputStream w dz s).length = outputLength w dz s :=
  encodedStream_length keyStreamV0 keyStreamV0_length w dz s

/-! ## The bytes of a stream -/

theorem encodedStream_key (vs : List Word) {j : Nat} (hj : j < keybytes vs.length) :
    (encodedStream keyStreamV0 vs)[j]? = some (keyByteV0 vs j) := by
  have hkey : j < (keyStreamV0 vs).length := by rwa [keyStreamV0_length]
  rw [encodedStream, List.getElem?_append_left hkey, List.getElem?_eq_getElem hkey,
    keyStreamV0_getElem]

theorem encodedStream_data (vs : List Word) {i k : Nat} (hi : i < vs.length)
    (hk : k < keylen vs[i]) :
    (encodedStream keyStreamV0 vs)[keybytes vs.length + ((vs.take i).map keylen).sum + k]?
      = some (BitVec.ofNat 8 (vs[i].toNat / 256 ^ k)) := by
  rw [encodedStream, Nat.add_assoc, ← keyStreamV0_length, List.getElem?_append_right (by omega),
    Nat.add_sub_cancel_left]
  exact dataStream_getElem? vs i k hi hk

/-- A byte of a list just written. -/
theorem read_writeBytes_of_getElem? {m : Memory} {a k : Nat} {bs : List Byte} {b : Byte}
    (hm : m.wf) (hfits : a + bs.length ≤ Config.addressSpace) (hb : bs[k]? = some b) :
    (writeBytes m a bs).read (a + k) = b := by
  obtain ⟨hk, rfl⟩ := List.getElem?_eq_some_iff.mp hb
  exact read_writeBytes_inside m a bs hm hfits k hk

/-- The codes of an encode's values are the spec's, and 0 past the last (R103, R104). -/
theorem codeAt_encoderInput (w : BitVec 3) (dz : Bool) (s : State) (i : Nat) :
    codeAt (encoderInput w dz s) i =
      if i < sourceCount w s.op then
        (keycode (encodeValue s.mem s.op.srcAddr.toNat w.toNat dz i)).toNat
      else 0 := by
  split
  · rename_i hi
    rw [codeAt_of_lt (by rwa [encoderInput_length]), encoderInput_getElem]
  · rename_i hi
    exact codeAt_of_le (by rw [encoderInput_length]; omega)

theorem forall_mem_encoderInput (w : BitVec 3) (dz : Bool) (s : State) (p : Word → Prop) :
    (∀ v ∈ encoderInput w dz s, p v) ↔
      ∀ j < sourceCount w s.op, p (encodeValue s.mem s.op.srcAddr.toNat w.toNat dz j) := by
  simp only [List.forall_mem_iff_getElem, encoderInput_length, encoderInput_getElem]

/-! ## An encode whose checks pass -/

/-- Too little capacity is found before the destination is accessed (R108). -/
theorem encodeCommand_too_small {w : BitVec 3} {dz : Bool} {s : State}
    (h : encodeAccepted w s.op) (hsource : onServedMemory s.platform (sourceOf s.op))
    (hdest : plainMemory s.platform (destOf s.op) = true)
    (hcap : s.op.dstCap.toNat < outputLength w dz s) :
    encodeCommand keyStreamV0 w dz s = .next (raiseError .destinationTooSmall s) := by
  obtain ⟨hplain, hserved⟩ := hsource
  rw [encodeCommand_accepted keyStreamV0 w dz s h, hplain, hdest, hserved, writeStream,
    outputStream_length, if_pos hcap]
  rfl

/-- An encode with room for its stream stores it. -/
theorem encodeCommand_stores {w : BitVec 3} {dz : Bool} {s : State} (h : encodeReady w s)
    (hcap : outputLength w dz s ≤ s.op.dstCap.toNat) :
    encodeCommand keyStreamV0 w dz s =
      .next (complete (outputLength w dz s) (sourceCount w s.op * w.toNat)
        (storeBytes s.op.dstAddr.toNat (outputStream w dz s) s)) := by
  obtain ⟨haccepted, ⟨hsourcePlain, hsourceServed⟩, ⟨hdestPlain, hdestServed⟩, -⟩ := h
  have hwithin : regionWithin ⟨s.op.dstAddr.toNat, outputLength w dz s⟩ (destOf s.op) :=
    regionWithin_of_le le_rfl (by omega)
  rw [encodeCommand_accepted keyStreamV0 w dz s haccepted, hsourcePlain, hdestPlain, hsourceServed,
    writeStream, outputStream_length, if_neg (not_lt.mpr hcap), served_within hwithin hdestServed]
  rfl

/-- The stream an encode stores lies in the address space. -/
theorem outputStream_fits {w : BitVec 3} {dz : Bool} {s : State} (h : destFits s.op)
    (hcap : outputLength w dz s ≤ s.op.dstCap.toNat) :
    s.op.dstAddr.toNat + (outputStream w dz s).length ≤ Config.addressSpace := by
  rw [outputStream_length]
  unfold Config.addressSpace
  omega

section
variable {w : BitVec 3} {dz : Bool} {s : State} (h : encodeReady w s)
  (hcap : outputLength w dz s ≤ s.op.dstCap.toNat)

include h hcap

theorem stored_key_byte {j : Nat} (hj : j < keybytes (sourceCount w s.op)) :
    (writeBytes s.mem s.op.dstAddr.toNat (outputStream w dz s)).read (s.op.dstAddr.toNat + j)
      = keyByteV0 (encoderInput w dz s) j := by
  obtain ⟨⟨-, -, hfits, -⟩, -, -, hwf⟩ := h
  refine read_writeBytes_of_getElem? hwf (outputStream_fits hfits hcap) (encodedStream_key _ ?_)
  rwa [encoderInput_length]

theorem stored_value_byte {j k : Nat} (hj : j < sourceCount w s.op)
    (hk : k < keylen (encodeValue s.mem s.op.srcAddr.toNat w.toNat dz j)) :
    (writeBytes s.mem s.op.dstAddr.toNat (outputStream w dz s)).read (s.op.dstAddr.toNat +
        streamOffset (fun x => keylen (encodeValue s.mem s.op.srcAddr.toNat w.toNat dz x))
          (sourceCount w s.op) j + k)
      = BitVec.ofNat 8 ((encodeValue s.mem s.op.srcAddr.toNat w.toNat dz j).toNat / 256 ^ k) := by
  obtain ⟨⟨-, -, hfits, -⟩, -, -, hwf⟩ := h
  have hlen := encoderInput_length w dz s
  have hget (i : Nat) (hi : i < (encoderInput w dz s).length) := encoderInput_getElem w dz s i hi
  have hj' : j < (encoderInput w dz s).length := by rwa [hlen]
  have hdata := encodedStream_data (encoderInput w dz s) hj' (k := k) (by rwa [hget])
  rw [hlen, hget] at hdata
  rw [streamOffset_eq (encoderInput w dz s) _ _ j (fun i hi => by rw [hget]) hj'.le, Nat.add_assoc]
  exact read_writeBytes_of_getElem? hwf (outputStream_fits hfits hcap) hdata

end

/-- Settles O11: what the stored stream holds at each offset. -/
theorem encodeWritesKeyAndDataStream : Obligations.EncodeWritesKeyAndDataStream := by
  intro w dz s i hi h hcap
  refine ⟨_, (exec_encode hi s).trans (encodeCommand_stores h hcap), rfl, fun _ j hj => ?keys,
    fun j hj k hk => stored_value_byte h hcap hj hk, fun a ha => ?frame⟩
  case keys =>
    refine (congrArg BitVec.toNat (stored_key_byte h hcap hj)).trans ?_
    simp [toNat_keyByteV0, codeAt_encoderInput, List.range_succ, Nat.add_assoc, ite_mul]
  case frame =>
    exact read_writeBytes_outside _ _ _ _ (by rwa [outputStream_length])

/-- Settles O12: the V1 keys are the V0 ones, whose bits are those of the codes. -/
theorem encodeV1KeysAreBitString : Obligations.EncodeV1KeysAreBitString := by
  intro w dz s h hcap
  refine ⟨_, (exec_encode (.inr rfl) s).trans (encodeCommand_stores h hcap), fun b hb => ?_⟩
  have hkey := stored_key_byte h hcap (j := b / 8) (by omega)
  refine (congrArg (·.getLsbD (b % 8)) hkey).trans ?_
  rw [keyByteV0_getLsbD, codeAt_encoderInput]
  split
  · rfl
  · exact Nat.zero_testBit _

/-! ## Errors -/

theorem badInputSize_eq_true_iff (w : BitVec 3) (op : Operands) :
    badInputSize w op = true ↔ ¬ sizeAccepted w op := by
  rw [← badInputSize_iff, Bool.not_eq_false]

/-- The condition of ADDRESS_ERROR for a command with two regions (R54). -/
theorem wraps_or_iff (op : Operands) :
    (wraps (sourceOf op) || wraps (destOf op)) = true ↔ ¬ (sourceFits op ∧ destFits op) := by
  rw [← wraps_source_iff, ← wraps_dest_iff, ← Bool.or_eq_false_iff, Bool.not_eq_false]

/-- Settles O13: each check is reached when those before it pass. -/
theorem encodeErrorsInOrder : Obligations.EncodeErrorsInOrder := by
  intro w dz s i hi
  rw [exec_encode hi]
  have hsized (h : sizeAccepted w s.op) := (badInputSize_eq_true_iff w s.op).not_left.mpr h
  have hfit (hs : sourceFits s.op) (hd : destFits s.op) :=
    (wraps_or_iff s.op).not_left.mpr ⟨hs, hd⟩
  refine ⟨fun hsize => ?inputSize, fun hsize hwraps => ?addressError,
    fun hsize hs hd hshare => ?overlap,
    fun h hsource hdest hcap => encodeCommand_too_small h hsource hdest hcap⟩
  case inputSize => exact if_pos ((badInputSize_eq_true_iff w s.op).mpr hsize)
  case addressError =>
    rw [encodeCommand, if_neg (hsized hsize), if_pos ((wraps_or_iff _).mpr hwraps)]
    rfl
  case overlap =>
    rw [encodeCommand, if_neg (hsized hsize), if_neg (hfit hs hd),
      if_pos ((regionsMeet_operands_iff _).mpr hshare)]
    rfl

/-! ## The bound -/

theorem outputLength_eq (w : BitVec 3) (dz : Bool) (s : State) :
    outputLength w dz s
      = keybytes (sourceCount w s.op) + (dataStream (encoderInput w dz s)).length := by
  rw [← outputStream_length, outputStream, encodedStream, List.length_append, keyStreamV0_length,
    encoderInput_length]

theorem outputLength_le (w : BitVec 3) (dz : Bool) (s : State) :
    outputLength w dz s ≤ keybytes (sourceCount w s.op) + 4 * sourceCount w s.op := by
  have hdata := dataStream_length_le (encoderInput w dz s)
  rw [encoderInput_length] at hdata
  rw [outputLength_eq]
  omega

theorem outputLength_eq_bound_iff (w : BitVec 3) (dz : Bool) (s : State) :
    outputLength w dz s = keybytes (sourceCount w s.op) + 4 * sourceCount w s.op ↔
      ∀ j < sourceCount w s.op,
        2 ^ 24 ≤ (encodeValue s.mem s.op.srcAddr.toNat w.toNat dz j).toNat := by
  rw [outputLength_eq, Nat.add_left_cancel_iff, ← forall_mem_encoderInput w dz s (2 ^ 24 ≤ ·.toNat),
    ← dataStream_length_eq_iff, encoderInput_length]

/-- RESULT of a successful encode is its stream's length. -/
theorem encodeCommand_success_result {w : BitVec 3} {dz : Bool} {s t : State}
    (h : encodeCommand keyStreamV0 w dz s = .next t) (hok : t.status.err = 0#4) :
    t.result.toNat = outputLength w dz s := by
  obtain ⟨e, rfl⟩ | ⟨-, hcap, rfl⟩ := encodeCommand_next h
  · exact absurd hok (errorCode_ne_zero e)
  · rw [complete_result, BitVec.toNat_ofNat, Nat.mod_eq_of_lt (hcap.trans_lt s.op.dstCap.isLt)]
    exact outputStream_length w dz s

/-- Settles O21: each value takes at most four bytes of the stream. -/
theorem encodeStaysWithinBound : Obligations.EncodeStaysWithinBound := by
  intro w dz s i hi
  rw [exec_encode hi]
  refine ⟨fun t ht hok => ?_, fun h hfour hcap => ?_⟩
  · rw [encodeCommand_success_result ht hok]
    exact ⟨outputLength_le w dz s, outputLength_eq_bound_iff w dz s⟩
  · have hlength := (outputLength_eq_bound_iff w dz s).mpr hfour
    obtain ⟨haccepted, hsource, ⟨hdest, -⟩, -⟩ := h
    exact encodeCommand_too_small haccepted hsource hdest (by omega)

/-! ## The fused transform -/

/-- An in-place transform on served plain memory stores its elements. -/
theorem transformCommand_stores (f : (n : Nat) → List (BitVec n) → List (BitVec n)) {w : BitVec 3}
    {s : State} (h : transformAccepted w s.op)
    (hsource : onServedMemory s.platform (sourceOf s.op)) :
    transformCommand f w s =
      .next (complete s.op.srcLen.toNat s.op.srcLen.toNat (storeBytes s.op.srcAddr.toNat
        (elementBytes (widthBytes w) (f _ (sourceElements w s))) s)) := by
  obtain ⟨hplain, hserved⟩ := hsource
  rw [transformCommand_accepted f w s h, hplain, hserved]
  rfl

/-- The elements read back where they were stored. -/
theorem readElements_writeBytes {m : Memory} (W a : Nat) (xs : List (BitVec (8 * W))) (hm : m.wf)
    (hfits : a + (elementBytes W xs).length ≤ Config.addressSpace) :
    readElements (writeBytes m a (elementBytes W xs)) W a xs.length = xs := by
  refine readElements_of_elementBytes _ _ _ _ ?_
  rw [← elementBytes_length]
  exact readBytes_writeBytes m a _ hm hfits

/-- After an in-place transform the operands and OVR are as before, and the source holds the
transformed elements. -/
theorem transformCommand_ready {f : (n : Nat) → List (BitVec n) → List (BitVec n)}
    (hf : ∀ n xs, (f n xs).length = xs.length) {w : BitVec 3} {s : State}
    (h : transformReady w s) :
    ∃ t, transformCommand f w s = .next t ∧ t.op = s.op ∧ t.platform = s.platform ∧
      t.status.ovr = s.status.ovr ∧ t.mem.wf ∧
      sourceElements w t = f _ (sourceElements w s) := by
  obtain ⟨⟨hsize, hfits⟩, hsource, hwf⟩ := h
  have hlen : (f _ (sourceElements w s)).length = s.op.srcLen.toNat / widthBytes w := by
    rw [hf, readElements_length]
  have hroom : s.op.srcAddr.toNat + (elementBytes (widthBytes w) (f _ (sourceElements w s))).length
      ≤ Config.addressSpace := by
    rw [transform_stored_length w s hsize _ hlen]
    exact hfits
  have hread := readElements_writeBytes _ _ _ hwf hroom
  rw [hlen] at hread
  exact ⟨_, transformCommand_stores f ⟨hsize, hfits⟩ hsource, rfl, rfl, rfl,
    writeBytes_wf _ _ _ hwf hroom, hread⟩

/-- Encodes of the same values to the same destination report the same and write the same bytes. -/
theorem encodeCommand_same_values {w : BitVec 3} {dz dz' : Bool} {s t : State}
    (hs : encodeReady w s) (ht : encodeReady w t) (hop : t.op = s.op)
    (hovr : t.status.ovr = s.status.ovr) (hvalues : encoderInput w dz' t = encoderInput w dz s) :
    ∃ x y, encodeCommand keyStreamV0 w dz s = .next x ∧
      encodeCommand keyStreamV0 w dz' t = .next y ∧ SameReport s.op.dstAddr.toNat x y := by
  have hstream : outputStream w dz' t = outputStream w dz s :=
    congrArg (encodedStream keyStreamV0) hvalues
  have hlength : outputLength w dz' t = outputLength w dz s := by
    rw [← outputStream_length, hstream, outputStream_length]
  by_cases hcap : outputLength w dz s ≤ s.op.dstCap.toNat
  · have hcap' : outputLength w dz' t ≤ t.op.dstCap.toNat := by rwa [hlength, hop]
    have hstoreS := encodeCommand_stores hs hcap
    have hstoreT := encodeCommand_stores ht hcap'
    obtain ⟨⟨-, -, hfits, -⟩, -, -, hwfS⟩ := hs
    obtain ⟨-, -, -, hwfT⟩ := ht
    have hroom := outputStream_fits hfits hcap
    refine ⟨_, _, hstoreS, hstoreT, ?_⟩
    rw [hlength, hstream, hop]
    refine ⟨by simp [hovr], rfl, rfl, fun a hlo hhi => ?_⟩
    obtain ⟨k, rfl⟩ := Nat.exists_eq_add_of_le hlo
    have hk : k < (outputStream w dz s).length := by
      have hmod := Nat.mod_le (outputLength w dz s) (2 ^ 32)
      rw [complete_result, BitVec.toNat_ofNat] at hhi
      rw [outputStream_length]
      omega
    exact (read_writeBytes_inside t.mem _ _ hwfT hroom k hk).trans
      (read_writeBytes_inside s.mem _ _ hwfS hroom k hk).symm
  · have hcap' : t.op.dstCap.toNat < outputLength w dz' t := by rw [hlength, hop]; omega
    obtain ⟨hacceptedS, hsourceS, ⟨hdestS, -⟩, -⟩ := hs
    obtain ⟨hacceptedT, hsourceT, ⟨hdestT, -⟩, -⟩ := ht
    exact ⟨_, _, encodeCommand_too_small hacceptedS hsourceS hdestS (not_le.mp hcap),
      encodeCommand_too_small hacceptedT hsourceT hdestT hcap', by simp [hovr], rfl, rfl,
      fun a hlo hhi => absurd hhi (not_lt.mpr hlo)⟩

/-- The encode of the version `v1` names. -/
theorem exec_encode_version (v1 : Bool) (w : BitVec 3) (dz : Bool) (s : State) :
    exec (if v1 then .encV1 w dz else .encV0 w dz) s = encodeCommand keyStreamV0 w dz s := by
  cases v1 with
  | false => exact exec_encode (.inl rfl) s
  | true => exact exec_encode (.inr rfl) s

/-- Settles O29: after svb.dzf the plain encode packs the values the fused one packs. -/
theorem fusedEncodeEqualsSeparate : Obligations.FusedEncodeEqualsSeparate := by
  intro v1 w s h
  obtain ⟨⟨hsize, hsourceFits, hdestFits, hshare⟩, hsource, hdest, hwf⟩ := id h
  obtain ⟨t, hdzf, hop, hplatform, hovr, hwf', helements⟩ :=
    transformCommand_ready (f := fun _ xs => forwardTransform xs)
      (fun _ => forwardTransform_length) ⟨⟨hsize, hsourceFits⟩, hsource, hwf⟩
  have ht : encodeReady w t := by
    rw [encodeReady, hop, hplatform]
    exact ⟨⟨hsize, hsourceFits, hdestFits, hshare⟩, hsource, hdest, hwf'⟩
  have hvalues : encoderInput w false t = encoderInput w true s :=
    congrArg (List.map (BitVec.setWidth 32)) helements
  obtain ⟨x, y, hx, hy, hstatus, hresult, hused, hmem⟩ :=
    encodeCommand_same_values h ht hop hovr hvalues
  refine ⟨t, x, y, hdzf, ?_, ?_, congrArg Status.err hstatus.symm, hresult.symm, hused.symm,
    fun a hlo hhi => (hmem a hlo hhi).symm⟩
  · rwa [exec_encode_version]
  · rwa [exec_encode_version]

end Sys2Proof.Machine
end

section
/-! The decode commands: the elements they write byte by byte, and their errors. -/

namespace Sys2Proof.Machine

/-- The codes a decode of either version reads (`exec_decode`). -/
abbrev sourceCodes (s : State) : List (BitVec 2) := decoderCodes readCodeV0 s

/-- The length of the stream a decode reads (R113, R114). -/
abbrev inputLength (s : State) : Nat :=
  decodeOffset s.mem s.op.srcAddr.toNat s.op.count.toNat s.op.count.toNat

theorem inputLength_eq (s : State) :
    inputLength s = keybytes s.op.count.toNat + dataLength (sourceCodes s) :=
  decodeOffset_eq readCodeV0_readsStreamCodes s

/-! ## The values of a stream -/

theorem sourceCodes_getElem (s : State) (i : Nat) (h : i < (sourceCodes s).length) :
    (sourceCodes s)[i] = streamCode s.mem s.op.srcAddr.toNat i := by
  simp [sourceCodes, decoderCodes_eq readCodeV0_readsStreamCodes]

/-- The first codes of a decode, up to value `i`. -/
theorem sourceCodes_take (s : State) {i : Nat} (h : i ≤ s.op.count.toNat) :
    (sourceCodes s).take i = (List.range i).map (streamCode s.mem s.op.srcAddr.toNat) := by
  rw [sourceCodes, decoderCodes_eq readCodeV0_readsStreamCodes, ← List.map_take, List.take_range,
    Nat.min_eq_left h]

/-- The data of the first values and of the next one lie in the data of all. -/
theorem dataLength_take_add_le (cs : List (BitVec 2)) (i : Nat) (h : i < cs.length) :
    dataLength (cs.take i) + codeLen cs[i] ≤ dataLength cs := by
  have hsplit : dataLength cs
      = dataLength (cs.take i) + (codeLen cs[i] + dataLength (cs.drop (i + 1))) := by
    conv_lhs => rw [← List.take_append_drop i cs, List.drop_eq_getElem_cons h]
    simp only [dataLength, List.map_append, List.map_cons, List.sum_append, List.sum_cons]
  omega

/-- Value i a decode reads is the spec's value i of the stream (R114). -/
theorem decodedValue_eq (s : State) (i : Nat)
    (h : i < (splitValues (sourceCodes s) (readBytes s.mem
      (s.op.srcAddr.toNat + keybytes s.op.count.toNat) (dataLength (sourceCodes s)))).length) :
    (splitValues (sourceCodes s) (readBytes s.mem
      (s.op.srcAddr.toNat + keybytes s.op.count.toNat) (dataLength (sourceCodes s))))[i]
      = decodeValue s.mem s.op.srcAddr.toNat s.op.count.toNat i := by
  have hcodes : i < (sourceCodes s).length := by rwa [splitValues_length] at h
  have hi : i ≤ s.op.count.toNat := by rw [decoderCodes_length] at hcodes; exact hcodes.le
  have hoffset : decodeOffset s.mem s.op.srcAddr.toNat s.op.count.toNat i
      = keybytes s.op.count.toNat + dataLength ((sourceCodes s).take i) := by
    rw [decodeOffset, streamOffset_codes, sourceCodes_take s hi]
  have hwithin := dataLength_take_add_le _ i hcodes
  rw [splitValues_getElem, ← dataLength, readBytes_drop_take _ _ _ _ _ hwithin, decodeValue,
    hoffset, ← sourceCodes_getElem s i hcodes, ← memRead_eq_sum, Nat.add_assoc]
  rfl

/-- Element i a decode writes is the spec's element i (R114, R116). -/
theorem decodedElement_eq (w : BitVec 3) (dz : Bool) (s : State) (i : Nat)
    (h : i < (decodedElements w dz (sourceCodes s) s).length) :
    (decodedElements w dz (sourceCodes s) s)[i]
      = decodeElement s.mem s.op.srcAddr.toNat s.op.count.toNat w.toNat dz i := by
  cases dz with
  | false =>
    simp only [decodedElements, decoderElements, Bool.false_eq_true, if_false, List.getElem_map,
      decodedValue_eq]
    rfl
  | true =>
    simp only [decodedElements, decoderElements, if_true]
    refine inverseTransform_getElem _ _ (fun j hj => ?_) i _
    rw [List.getElem_map, decodedValue_eq]

/-! ## A decode whose checks pass -/

/-- A decode of a stream that lies in its source stores its elements. -/
theorem decodeCommand_stores {w : BitVec 3} (dz : Bool) {s : State} (h : decodeReady w s)
    (hlen : inputLength s ≤ s.op.srcLen.toNat) :
    decodeCommand readCodeV0 w dz s =
      .next (complete (w.toNat * s.op.count.toNat) (inputLength s)
        (storeBytes s.op.dstAddr.toNat
          (elementBytes (widthBytes w) (decodedElements w dz (sourceCodes s) s)) s)) := by
  obtain ⟨haccepted, ⟨hsourcePlain, hsourceServed⟩, ⟨hdestPlain, hdestServed⟩, -⟩ := h
  obtain ⟨-, -, -, -, hcap, hkeylen⟩ := id haccepted
  rw [inputLength_eq] at hlen ⊢
  have hkeys : regionWithin ⟨s.op.srcAddr.toNat, keybytes s.op.count.toNat⟩ (sourceOf s.op) :=
    regionWithin_of_le le_rfl (by omega)
  have hdata : regionWithin ⟨s.op.srcAddr.toNat + keybytes s.op.count.toNat,
      dataLength (sourceCodes s)⟩ (sourceOf s.op) :=
    regionWithin_of_le (by omega) (by omega)
  have helements : regionWithin ⟨s.op.dstAddr.toNat, widthBytes w * s.op.count.toNat⟩
      (destOf s.op) := regionWithin_of_le le_rfl (by unfold widthBytes; omega)
  rw [decodeCommand_accepted readCodeV0 w dz s haccepted, hsourcePlain, hdestPlain,
    served_within hkeys hsourceServed, readStream, if_neg (not_lt.mpr hlen),
    served_within hdata hsourceServed, served_within helements hdestServed]
  rfl

/-- The elements a decode stores lie in the address space. -/
theorem decodedElements_fit {w : BitVec 3} (dz : Bool) {s : State} (h : decodeAccepted w s.op) :
    s.op.dstAddr.toNat
        + (elementBytes (widthBytes w) (decodedElements w dz (sourceCodes s) s)).length
      ≤ Config.addressSpace := by
  obtain ⟨-, -, hdest, -, hcap, -⟩ := h
  rw [decoded_stored_length]
  unfold Config.addressSpace widthBytes
  omega

/-- Settles O14: the stored bytes are those of the spec's elements. -/
theorem decodeWritesElements : Obligations.DecodeWritesElements := by
  intro w dz s i hi h hlen
  obtain ⟨haccepted, -, -, hwf⟩ := id h
  refine ⟨_, (exec_decode hi s).trans (decodeCommand_stores dz h hlen), rfl, fun j hj k hk => ?_,
    fun a ha => ?_⟩
  · have hj' : j < (decodedElements w dz (sourceCodes s) s).length := by
      rwa [decoderElements_length, splitValues_length, decoderCodes_length]
    have hin : j * w.toNat + k
        < (elementBytes (widthBytes w) (decodedElements w dz (sourceCodes s) s)).length := by
      rw [decoded_stored_length]
      unfold widthBytes
      nlinarith
    have hstored := read_writeBytes_inside s.mem s.op.dstAddr.toNat _ hwf
      (decodedElements_fit dz haccepted) _ hin
    rw [elementBytes_getElem _ _ j k hj' hk, decodedElement_eq, ← Nat.add_assoc] at hstored
    exact hstored
  · exact read_writeBytes_outside _ _ _ _ (by rwa [decoded_stored_length])

/-! ## Errors -/

/-- A stream longer than the source is found before its data are accessed (R113). -/
theorem decodeCommand_corrupted {w : BitVec 3} (dz : Bool) {s : State}
    (h : decodeAccepted w s.op) (hsource : onServedMemory s.platform (sourceOf s.op))
    (hdest : plainMemory s.platform (destOf s.op) = true)
    (hlen : s.op.srcLen.toNat < inputLength s) :
    decodeCommand readCodeV0 w dz s = .next (raiseError .inputCorrupted s) := by
  obtain ⟨hplain, hserved⟩ := hsource
  obtain ⟨-, -, -, -, -, hkeylen⟩ := id h
  have hkeys : regionWithin ⟨s.op.srcAddr.toNat, keybytes s.op.count.toNat⟩ (sourceOf s.op) :=
    regionWithin_of_le le_rfl (by omega)
  rw [inputLength_eq] at hlen
  rw [decodeCommand_accepted readCodeV0 w dz s h, hplain, hdest, served_within hkeys hserved,
    readStream, if_pos hlen]
  rfl

theorem legalWidth_not_iff (w : BitVec 3) : (!legalWidth w) = true ↔ ¬ widthLegal w := by
  rw [← legalWidth_iff, Bool.not_eq_true', Bool.not_eq_true]

/-- Settles O15: each check is reached when those before it pass. -/
theorem decodeErrorsInOrder : Obligations.DecodeErrorsInOrder := by
  intro w dz s i hi
  rw [exec_decode hi]
  have hwidth (h : widthLegal w) := (legalWidth_not_iff w).not_left.mpr h
  have hfit (hs : sourceFits s.op) (hd : destFits s.op) :=
    (wraps_or_iff s.op).not_left.mpr ⟨hs, hd⟩
  have hapart (h : ¬ regionsShare s.op) := mt (regionsMeet_operands_iff s.op).mp h
  refine ⟨fun hw => ?inputSize, fun hw hwraps => ?addressError,
    fun hw hs hd hshare => ?overlap, fun hw hs hd hshare hcap => ?tooSmall,
    fun hw hs hd hshare hcap hkeys => ?keysCorrupted,
    fun h hs hd hlen => decodeCommand_corrupted dz h hs hd hlen⟩
  case inputSize => exact if_pos ((legalWidth_not_iff w).mpr hw)
  case addressError =>
    rw [decodeCommand, if_neg (hwidth hw), if_pos ((wraps_or_iff _).mpr hwraps)]
    rfl
  case overlap =>
    rw [decodeCommand, if_neg (hwidth hw), if_neg (hfit hs hd),
      if_pos ((regionsMeet_operands_iff _).mpr hshare)]
    rfl
  case tooSmall =>
    rw [decodeCommand, if_neg (hwidth hw), if_neg (hfit hs hd), if_neg (hapart hshare),
      if_pos hcap]
    rfl
  case keysCorrupted =>
    rw [decodeCommand, if_neg (hwidth hw), if_neg (hfit hs hd), if_neg (hapart hshare),
      if_neg (not_lt.mpr hcap), if_pos hkeys]
    rfl

end Sys2Proof.Machine
end

section
/-! The round trip of R119: a stream that stands in memory is read back to the values it was made
from, and the transforms and the widening are undone. -/

namespace Sys2Proof.Machine

/-! ## The transforms undone -/

theorem unzigzag_zigzag {n : Nat} (s : BitVec n) : unzigzag (zigzag s) = s := by
  have hlow (hn : 0 < n) : (zigzag s).getLsbD 0 = s.msb := by
    cases hm : s.msb <;> simp [zigzag, spread, hm, hn]
  ext i hi
  have hbit : (unzigzag (zigzag s))[i] = ((zigzag s).getLsbD (i + 1) ^^ s.msb) := by
    rw [unzigzag, hlow (by omega), Nat.add_comm i 1]
    cases s.msb <;> simp [spread]
  rw [hbit]
  by_cases hlast : i + 1 < n
  · cases hm : s.msb <;> simp [zigzag, spread, hm, hlast]
  · have htop : s[i] = s.msb := by
      rw [BitVec.msb_eq_getLsbD_last, BitVec.getLsbD_eq_getElem (by omega)]
      congr 1
      omega
    rw [BitVec.getLsbD_of_ge _ _ (not_lt.mp hlast), Bool.false_xor, htop]

theorem inverseDelta_forwardDelta {n : Nat} (p : BitVec n) (xs : List (BitVec n)) :
    inverseDelta p (forwardDelta p xs) = xs := by
  induction xs generalizing p with
  | nil => rfl
  | cons x xs ih => rw [forwardDelta, inverseDelta, add_sub_cancel, ih]

theorem inverseTransform_forwardTransform {n : Nat} (xs : List (BitVec n)) :
    inverseTransform (forwardTransform xs) = xs := by
  have hunzig : unzigzag ∘ zigzag = @id (BitVec n) := funext unzigzag_zigzag
  rw [inverseTransform, forwardTransform, List.map_map, hunzig, List.map_id,
    inverseDelta_forwardDelta]

/-- Truncation undoes the widening, and the inverse transform the forward one (R116, R119). -/
theorem decoderElements_encoderValues {W : Nat} (hW : W ≤ 4) (dz : Bool)
    (xs : List (BitVec (8 * W))) : decoderElements W dz (encoderValues W dz xs) = xs := by
  have hnarrow : BitVec.setWidth (8 * W) ∘ BitVec.setWidth 32 = @id (BitVec (8 * W)) := by
    funext x
    have hle : 8 * W ≤ 32 := by omega
    exact (BitVec.setWidth_setWidth_of_le x hle).trans (BitVec.setWidth_eq x)
  cases dz with
  | false => simp [decoderElements, encoderValues, hnarrow]
  | true => simp [decoderElements, encoderValues, hnarrow, inverseTransform_forwardTransform]

/-! ## A stream read back -/

theorem dataLength_keycodes (vs : List Word) :
    dataLength (vs.map keycode) = (dataStream vs).length := by
  rw [dataStream_length, dataLength, List.map_map]
  rfl

/-- The data stream, cut by the key codes, gives the values back. -/
theorem splitValues_dataStream (vs : List Word) :
    splitValues (vs.map keycode) (dataStream vs) = vs := by
  induction vs with
  | nil => rfl
  | cons v vs ih =>
    have hlen : codeLen (keycode v) = (valueBytes v).length := (leBytes_length _ _).symm
    have hvalue : BitVec.ofNat 32 (leNat (valueBytes v)) = v := by
      rw [valueBytes, leNat_leBytes, Nat.mod_eq_of_lt (lt_pow_keylen v), BitVec.ofNat_toNat,
        BitVec.setWidth_eq]
    rw [List.map_cons, splitValues, dataStream, List.flatMap_cons, hlen, List.take_left,
      List.drop_left, hvalue]
    exact congrArg (v :: ·) ih

/-- The encoded stream of the values `vs` stands in memory at address `a`. -/
def StreamAt (m : Memory) (a : Nat) (vs : List Word) : Prop :=
  readBytes m a (encodedStream keyStreamV0 vs).length = encodedStream keyStreamV0 vs

theorem StreamAt.codes {m : Memory} {a : Nat} {vs : List Word} (h : StreamAt m a vs) :
    (List.range vs.length).map (streamCode m a) = vs.map keycode := by
  refine List.ext_getElem (by simp) fun i hi _ => ?_
  have hi' : i < vs.length := by simpa using hi
  have hkey := encodedStream_key vs (div_four_lt_keybytes hi')
  obtain ⟨hlt, hbyte⟩ := List.getElem?_eq_some_iff.mp hkey
  have hread : m.read (a + i / 4) = keyByteV0 vs (i / 4) := by
    rw [← hbyte, ← readBytes_getElem m a _ _ (by rwa [readBytes_length])]
    exact List.getElem_of_eq h _
  apply BitVec.eq_of_toNat_eq
  rw [List.getElem_map, List.getElem_range, List.getElem_map, streamCode, hread,
    BitVec.toNat_ofNat, ← codeAt_of_lt hi']
  exact keyByteV0_digit vs i

theorem StreamAt.data {m : Memory} {a : Nat} {vs : List Word} (h : StreamAt m a vs) :
    readBytes m (a + keybytes vs.length) (dataLength (vs.map keycode)) = dataStream vs := by
  rw [StreamAt, encodedStream, List.length_append, readBytes_append, keyStreamV0_length] at h
  rw [dataLength_keycodes]
  exact (List.append_inj h (by simp)).2

section
variable {u : State} {vs : List Word} (hstream : StreamAt u.mem u.op.srcAddr.toNat vs)
  (hcount : u.op.count.toNat = vs.length)

include hstream hcount

theorem sourceCodes_of_streamAt : sourceCodes u = vs.map keycode := by
  rw [sourceCodes, decoderCodes_eq readCodeV0_readsStreamCodes, hcount, hstream.codes]

theorem inputLength_of_streamAt : inputLength u = (encodedStream keyStreamV0 vs).length := by
  rw [inputLength_eq, sourceCodes_of_streamAt hstream hcount, dataLength_keycodes, hcount,
    encodedStream, List.length_append, keyStreamV0_length]

/-- The elements decoded from the stream of an encoder's values are the encoder's. -/
theorem decodedElements_of_streamAt {w : BitVec 3} {dz : Bool} (hw : widthLegal w)
    {xs : List (BitVec (8 * widthBytes w))} (hvs : vs = encoderValues (widthBytes w) dz xs) :
    decodedElements w dz (sourceCodes u) u = xs := by
  rw [decodedElements, sourceCodes_of_streamAt hstream hcount, hcount, hstream.data,
    splitValues_dataStream, hvs, decoderElements_encoderValues (widthBytes_le w hw)]

end

/-! ## The commands -/

/-- After a successful encode its stream stands at the destination, RESULT bytes long. -/
theorem streamAt_of_encode {w : BitVec 3} {dz : Bool} {s t : State} {m : Memory}
    (hwf : s.mem.wf) (h : encodeCommand keyStreamV0 w dz s = .next t) (hok : t.status.err = 0#4)
    (hagree : ∀ a, s.op.dstAddr.toNat ≤ a → a < s.op.dstAddr.toNat + t.result.toNat →
      m.read a = t.mem.read a) : StreamAt m s.op.dstAddr.toNat (encoderInput w dz s) := by
  have hresult := encodeCommand_success_result h hok
  rw [hresult, ← outputStream_length] at hagree
  obtain ⟨e, rfl⟩ | ⟨⟨-, -, hdest, -⟩, hcap, rfl⟩ := encodeCommand_next h
  · exact absurd hok (errorCode_ne_zero e)
  · have hfits := outputStream_fits hdest (outputStream_length w dz s ▸ hcap)
    exact (readBytes_congr _ _ _ _ hagree).trans (readBytes_writeBytes s.mem _ _ hwf hfits)

/-- The decode of the version `v1` names. -/
theorem exec_decode_version (v1 : Bool) (w : BitVec 3) (dz : Bool) (s : State) :
    exec (if v1 then .decV1 w dz else .decV0 w dz) s = decodeCommand readCodeV0 w dz s := by
  cases v1 with
  | false => exact exec_decode (.inl rfl) s
  | true => exact exec_decode (.inr rfl) s

/-- Settles O27: the stream the encode left is read back to the elements it was made from. -/
theorem encodeThenDecodeRestores : Obligations.EncodeThenDecodeRestores := by
  intro v1 w dz s t u h ht hok hu hsrc hlen hcount hagree
  rw [exec_encode_version] at ht
  obtain ⟨⟨⟨hw, -⟩, -⟩, -, -, hwfS⟩ := h
  have hresult := encodeCommand_success_result ht hok
  have hstream : StreamAt u.mem u.op.srcAddr.toNat (encoderInput w dz s) :=
    hsrc ▸ streamAt_of_encode hwfS ht hok hagree
  have hcount' : u.op.count.toNat = (encoderInput w dz s).length := by
    rw [hcount, encoderInput_length]
  have hinput : inputLength u = t.result.toNat := by
    rw [inputLength_of_streamAt hstream hcount', hresult, outputStream_length]
  have hbytes : elementBytes (widthBytes w) (decodedElements w dz (sourceCodes u) u)
      = readBytes s.mem s.op.srcAddr.toNat (widthBytes w * sourceCount w s.op) := by
    rw [decodedElements_of_streamAt hstream hcount' hw rfl, elementBytes_readElements]
  have hdecode := decodeCommand_stores dz hu (hinput.trans_le hlen)
  obtain ⟨haccepted, -, -, hwf⟩ := hu
  obtain ⟨-, -, -, -, hcap, -⟩ := id haccepted
  have hfits := decodedElements_fit dz haccepted
  rw [hbytes] at hdecode hfits
  refine ⟨_, (exec_decode_version v1 w dz u).trans hdecode, rfl, ?result, ?inUsed, fun k hk => ?_⟩
  case result =>
    rw [complete_result, BitVec.toNat_ofNat, Nat.mod_eq_of_lt (hcap.trans_lt u.op.dstCap.isLt),
      hcount, Nat.mul_comm]
  case inUsed => rw [complete_inUsed, hinput, BitVec.ofNat_toNat, BitVec.setWidth_eq]
  have hk' : k < (readBytes s.mem s.op.srcAddr.toNat
      (widthBytes w * sourceCount w s.op)).length := by
    rwa [readBytes_length, Nat.mul_comm]
  exact (read_writeBytes_inside u.mem _ _ hwf hfits k hk').trans (readBytes_getElem _ _ _ _ hk')

end Sys2Proof.Machine
end

section
/-! svb.bound, and the encode and decode words that name no version. -/

namespace Sys2Proof.Machine

/-! ## The bound -/

theorem sizeBound_mono {n k : Nat} (h : n ≤ k) : sizeBound n ≤ sizeBound k := by
  unfold sizeBound keybytes
  omega

/-- The count is the only ceiling of SRC_LEN / W. -/
theorem boundCount_eq {w : BitVec 3} {op : Operands} {n : Nat} (hw : widthLegal w)
    (hlo : op.srcLen.toNat ≤ n * w.toNat) (hhi : n * w.toNat < op.srcLen.toNat + w.toNat) :
    boundCount w op = n := by
  have hpos := widthBytes_pos hw
  unfold boundCount widthBytes at *
  exact Nat.div_eq_of_lt_le (by omega) (by rw [Nat.succ_mul]; omega)

/-- The bound is the only sum of 4N and the ceiling of N / 4. -/
theorem sizeBound_eq {n b : Nat} (hlo : n ≤ 4 * (b - 4 * n)) (hhi : 4 * (b - 4 * n) < n + 4)
    (hb : 4 * n ≤ b) : sizeBound n = b := by
  unfold sizeBound keybytes
  omega

theorem boundCount_mono (w : BitVec 3) {op op' : Operands}
    (h : op.srcLen.toNat ≤ op'.srcLen.toNat) : boundCount w op ≤ boundCount w op' :=
  Nat.div_le_div_right (by omega)

/-- Settles O19: both ceilings are those of the model. -/
theorem boundResult : Obligations.BoundResult := by
  intro w s n b
  refine ⟨fun hw => if_pos ((legalWidth_not_iff w).mpr hw),
    fun hw hlo hhi hkeylo hkeyhi hdata => ?_⟩
  have hlegal := (legalWidth_not_iff w).not_left.mpr hw
  have hbound : sizeBound (boundCount w s.op) = b := by
    rw [boundCount_eq hw hlo hhi, sizeBound_eq hkeylo hkeyhi hdata]
  refine ⟨fun hfits => ?_, fun hlarge => ?_⟩
  · rw [exec, execBound, if_neg hlegal, hbound, if_neg (by omega)]
    rfl
  · rw [exec, execBound, if_neg hlegal, hbound, if_pos (by omega)]
    rfl

/-- RESULT of a successful bound. -/
theorem execBound_success_result {w : BitVec 3} {s t : State} (h : execBound w s = .next t)
    (hok : t.status.err = 0#4) : t.result.toNat = sizeBound (boundCount w s.op) := by
  obtain ⟨e, rfl⟩ | ⟨-, hfits, rfl⟩ := execBound_next h
  · exact absurd hok (errorCode_ne_zero e)
  · rw [complete_result, BitVec.toNat_ofNat, Nat.mod_eq_of_lt (by omega)]

/-- Settles O20: the count and the bound of a count are non-decreasing. -/
theorem boundIsMonotone : Obligations.BoundIsMonotone := by
  intro w s s' t t' hle ht ht' hok hok'
  rw [execBound_success_result ht hok, execBound_success_result ht' hok']
  exact sizeBound_mono (boundCount_mono w hle)

/-! ## Words that name no version -/

/-- A word by the sum of its fields, RSV being 0, is put together from them. -/
theorem ofNat_fields (op ver : BitVec 4) (w : BitVec 3) (dz : Bool) :
    BitVec.ofNat 32 (op.toNat + 16 * ver.toNat + 256 * w.toNat + 2048 * dz.toNat)
      = packFields op ver w dz := by
  rw [← toNat_packFields, BitVec.ofNat_toNat, BitVec.setWidth_eq]

theorem execEncUnknown_eq (ver : BitVec 4) (w : BitVec 3) (dz : Bool) (s : State) :
    execEncUnknown ver w dz s =
      .next (completed (if sizeAccepted w s.op then 3#4 else 2#4) 0 0 s) := by
  by_cases h : sizeAccepted w s.op
  · rw [execEncUnknown, if_neg ((badInputSize_eq_true_iff w s.op).not_left.mpr h), if_pos h]
    rfl
  · rw [execEncUnknown, if_pos ((badInputSize_eq_true_iff w s.op).mpr h), if_neg h]
    rfl

theorem execDecUnknown_eq (ver : BitVec 4) (w : BitVec 3) (dz : Bool) (s : State) :
    execDecUnknown ver w dz s = .next (completed (if widthLegal w then 3#4 else 2#4) 0 0 s) := by
  by_cases h : widthLegal w
  · rw [execDecUnknown, if_neg ((legalWidth_not_iff w).not_left.mpr h), if_pos h]
    rfl
  · rw [execDecUnknown, if_pos ((legalWidth_not_iff w).mpr h), if_neg h]
    rfl

/-- Settles O22: the words decode by R77's clauses for OP 1 and 2, and neither form reaches
memory. -/
theorem unknownVersionCompletesWithError : Obligations.UnknownVersionCompletesWithError := by
  intro ver w dz s hver
  have henc := (congrArg decode (ofNat_fields 1#4 ver w dz)).trans (decode_op_enc ver w dz rfl)
  have hdec := (congrArg decode (ofNat_fields 2#4 ver w dz)).trans (decode_op_dec ver w dz rfl)
  rw [decodeEnc_unknown w dz hver] at henc
  rw [decodeDec_unknown w dz hver] at hdec
  exact ⟨henc, hdec, execEncUnknown_eq ver w dz s, execDecUnknown_eq ver w dz s⟩

end Sys2Proof.Machine
end

section
/-! The in-place pre-transforms of R145 and R146: the elements they store, their errors, and that
each transform undoes the other (R144). -/

namespace Sys2Proof.Machine

/-! ## Errors -/

/-- The checks of an in-place transform before its first memory access (R174). -/
theorem transformCommand_errors (f : (n : Nat) → List (BitVec n) → List (BitVec n)) (w : BitVec 3)
    (s : State) :
    (¬ sizeAccepted w s.op → transformCommand f w s = .next (completed 2#4 0 0 s)) ∧
    (sizeAccepted w s.op → ¬ sourceFits s.op →
      transformCommand f w s = .next (completed 4#4 0 0 s)) := by
  refine ⟨fun hsize => if_pos ((badInputSize_eq_true_iff w s.op).mpr hsize), fun hsize hfits => ?_⟩
  have hwraps : wraps (sourceOf s.op) = true :=
    eq_true_of_ne_false (mt (wraps_source_iff s.op).mp hfits)
  rw [transformCommand, (badInputSize_iff w s.op).mpr hsize, if_pos hwraps]
  rfl

/-- Settles O18: the checks do not depend on which transform is run. -/
theorem transformErrorsInOrder : Obligations.TransformErrorsInOrder := by
  rintro w s i (rfl | rfl)
  · exact transformCommand_errors (fun _ xs => forwardTransform xs) w s
  · exact transformCommand_errors (fun _ xs => inverseTransform xs) w s

/-! ## The elements stored -/

/-- Byte k of element j of a sequence just written (R50). -/
theorem read_writeBytes_element {m : Memory} {W a : Nat} {xs : List (BitVec (8 * W))} (hm : m.wf)
    (hfits : a + (elementBytes W xs).length ≤ Config.addressSpace) {j k : Nat}
    (hj : j < xs.length) (hk : k < W) :
    (writeBytes m a (elementBytes W xs)).read (a + j * W + k)
      = BitVec.ofNat 8 (xs[j].toNat / 256 ^ k) := by
  have hin : j * W + k < (elementBytes W xs).length := by
    rw [elementBytes_length]
    nlinarith
  rw [Nat.add_assoc, read_writeBytes_inside m a _ hm hfits _ hin,
    elementBytes_getElem _ _ _ _ hj hk]

/-- What an in-place transform leaves, given its output by index: those elements in the source, and
every other byte as it was. -/
theorem transformCommand_in_place {f : (n : Nat) → List (BitVec n) → List (BitVec n)}
    (hf : ∀ n xs, (f n xs).length = xs.length) {w : BitVec 3} {s : State} (h : transformReady w s)
    {y : Nat → BitVec (8 * w.toNat)}
    (hy : ∀ j (hj : j < (f _ (sourceElements w s)).length), (f _ (sourceElements w s))[j] = y j) :
    ∃ t, transformCommand f w s = .next t ∧
      t = completed 0#4 s.op.srcLen.toNat s.op.srcLen.toNat { s with mem := t.mem } ∧
      (∀ j < sourceCount w s.op, ∀ k < w.toNat,
        t.mem.read (s.op.srcAddr.toNat + j * w.toNat + k)
          = BitVec.ofNat 8 ((y j).toNat / 256 ^ k)) ∧
      (∀ a, a < s.op.srcAddr.toNat ∨ s.op.srcAddr.toNat + s.op.srcLen.toNat ≤ a →
        t.mem.read a = s.mem.read a) := by
  obtain ⟨⟨hsize, hfits⟩, hsource, hwf⟩ := h
  have hrun := transformCommand_stores f ⟨hsize, hfits⟩ hsource
  have hlen : (f _ (sourceElements w s)).length = sourceCount w s.op := by
    rw [hf, readElements_length]
  have hroom : s.op.srcAddr.toNat + (elementBytes (widthBytes w) (f _ (sourceElements w s))).length
      ≤ Config.addressSpace := by
    rw [transform_stored_length w s hsize _ hlen]
    exact hfits
  refine ⟨_, hrun, rfl, fun j hj k hk => ?_, fun a ha => transformCommand_mem_frame hf hrun ha⟩
  have hj' : j < (f _ (sourceElements w s)).length := hlen ▸ hj
  rw [← hy j hj']
  exact read_writeBytes_element hwf hroom hj' hk

/-- Settles O16: entry i of the forward transform is the spec's element i. -/
theorem forwardTransformInPlace : Obligations.ForwardTransformInPlace := fun _ _ h =>
  transformCommand_in_place (f := fun _ xs => forwardTransform xs)
    (fun _ => forwardTransform_length) h (forwardTransform_readElements _ _ _ _)

/-- Settles O17: entry i of the inverse transform is the spec's running sum up to i. -/
theorem inverseTransformInPlace : Obligations.InverseTransformInPlace := fun _ _ h =>
  transformCommand_in_place (f := fun _ xs => inverseTransform xs)
    (fun _ => inverseTransform_length) h
    (inverseTransform_getElem _ _ (readElements_getElem_eq _ _ _ _))

/-! ## The transforms as bijections -/

/-- There are finitely many words of a width, so the left inverse of `unzigzag_zigzag` is a right
inverse too. -/
theorem zigzag_unzigzag {n : Nat} (u : BitVec n) : zigzag (unzigzag u) = u := by
  have hleft : Function.LeftInverse unzigzag (zigzag (n := n)) := unzigzag_zigzag
  have hfinite : Finite (BitVec n) := Finite.of_equiv _ BitVec.equivFin.symm.toEquiv
  have hsurj : Function.Surjective (zigzag (n := n)) :=
    Finite.surjective_of_injective hleft.injective
  exact hleft.rightInverse_of_surjective hsurj u

theorem forwardDelta_inverseDelta {n : Nat} (p : BitVec n) (ds : List (BitVec n)) :
    forwardDelta p (inverseDelta p ds) = ds := by
  induction ds generalizing p with
  | nil => rfl
  | cons d ds ih => rw [inverseDelta, forwardDelta, add_sub_cancel_left, ih]

theorem forwardTransform_inverseTransform {n : Nat} (us : List (BitVec n)) :
    forwardTransform (inverseTransform us) = us := by
  have hzig : zigzag ∘ unzigzag = @id (BitVec n) := funext zigzag_unzigzag
  rw [forwardTransform, inverseTransform, forwardDelta_inverseDelta, List.map_map, hzig,
    List.map_id]

/-- Settles O30: each map and its inverse undo each other in both orders. -/
theorem preTransformIsBijective : Obligations.PreTransformIsBijective := fun _ =>
  ⟨unzigzag_zigzag, zigzag_unzigzag, inverseDelta_forwardDelta, forwardDelta_inverseDelta,
    inverseTransform_forwardTransform, forwardTransform_inverseTransform⟩

/-! ## The commands undone -/

theorem read_eq_of_readBytes_eq {m m' : Memory} {a n : Nat}
    (h : readBytes m a n = readBytes m' a n) {x : Nat} (hlo : a ≤ x) (hhi : x < a + n) :
    m.read x = m'.read x := by
  obtain ⟨k, rfl⟩ := Nat.exists_eq_add_of_le hlo
  have hk : k < (readBytes m a n).length := by rw [readBytes_length]; omega
  have hbyte := List.getElem_of_eq h hk
  rwa [readBytes_getElem, readBytes_getElem] at hbyte

/-- Elements of W bytes that fill the source pin its bytes. -/
theorem readBytes_source_of_elements_eq {w : BitVec 3} {s t : State} (hsize : sizeAccepted w s.op)
    (hop : t.op = s.op) (h : sourceElements w t = sourceElements w s) :
    readBytes t.mem s.op.srcAddr.toNat s.op.srcLen.toNat
      = readBytes s.mem s.op.srcAddr.toNat s.op.srcLen.toNat := by
  have hfill : widthBytes w * (s.op.srcLen.toNat / widthBytes w) = s.op.srcLen.toNat :=
    Nat.mul_div_cancel' (Nat.dvd_of_mod_eq_zero hsize.2)
  have hbytes := congrArg (elementBytes (widthBytes w)) h
  rwa [sourceElements, sourceElements, hop, elementBytes_readElements, elementBytes_readElements,
    hfill] at hbytes

/-- Two in-place transforms of which the second undoes the first on lists leave memory as it was:
its bytes inside the source are those of the same elements, and no other byte is written. -/
theorem transformCommand_undone {f g : (n : Nat) → List (BitVec n) → List (BitVec n)}
    (hf : ∀ n xs, (f n xs).length = xs.length) (hg : ∀ n xs, (g n xs).length = xs.length)
    (hgf : ∀ n xs, g n (f n xs) = xs) {w : BitVec 3} {s : State} (h : transformReady w s) :
    ∃ t x, transformCommand f w s = .next t ∧ transformCommand g w t = .next x ∧
      x.mem = s.mem := by
  obtain ⟨t, hrun, hop, hplatform, -, hwf, helements⟩ := transformCommand_ready hf h
  obtain ⟨haccepted, hsource, hwfS⟩ := h
  have ht : transformReady w t := by
    rw [transformReady, hop, hplatform]
    exact ⟨haccepted, hsource, hwf⟩
  obtain ⟨x, hrun', hop', -, -, hwf', helements'⟩ := transformCommand_ready hg ht
  have hsame : sourceElements w x = sourceElements w s := by rw [helements', helements, hgf]
  have hbytes := readBytes_source_of_elements_eq haccepted.1 (hop'.trans hop) hsame
  refine ⟨t, x, hrun, hrun', Memory.ext_of_wf _ _ hwf' hwfS fun a => ?_⟩
  by_cases ha : a < s.op.srcAddr.toNat ∨ s.op.srcAddr.toNat + s.op.srcLen.toNat ≤ a
  · calc x.mem.read a = t.mem.read a := transformCommand_mem_frame hg hrun' (by rwa [hop])
      _ = s.mem.read a := transformCommand_mem_frame hf hrun ha
  · exact read_eq_of_readBytes_eq hbytes (by omega) (by omega)

/-- Settles O28: the transforms are inverse to each other on lists (`preTransformIsBijective`). -/
theorem transformsUndoEachOther : Obligations.TransformsUndoEachOther := by
  intro w s h
  have hforward (n : Nat) (xs : List (BitVec n)) := forwardTransform_length xs
  have hinverse (n : Nat) (xs : List (BitVec n)) := inverseTransform_length xs
  exact ⟨transformCommand_undone hforward hinverse (fun _ => inverseTransform_forwardTransform) h,
    transformCommand_undone hinverse hforward (fun _ => forwardTransform_inverseTransform) h⟩

end Sys2Proof.Machine
end

section
/-! svb.nop: the only legal word of OP 0, and the interrupt every completion raises. -/

namespace Sys2Proof.Machine

/-- OP 0 with any other bit set is illegal (R80, R160): a bit of RSV, or one of the fields that
`svb.nop` wants 0. -/
theorem decode_op_nop_of_ne_zero {w : Word} (hne : w ≠ 0#32) (hop : (opField w).toNat = 0) :
    ∃ e, decode w = .error e := by
  by_cases hrsv : reservedField w = 0#20
  · have hfields : ¬ (verField w = 0#4 ∧ widthField w = 0#3 ∧ dzField w = false) := by
      rintro ⟨hver, hwidth, hdz⟩
      apply hne
      rw [eq_packFields hrsv, BitVec.eq_of_toNat_eq (y := 0#4) hop, hver, hwidth, hdz]
      rfl
    rw [eq_packFields hrsv, decode_op_nop _ _ _ hop, if_neg hfields]
    exact ⟨_, rfl⟩
  · exact ⟨_, decode_reservedBits hrsv⟩

/-- A completion sets DONE, so `irq` is then CTRL.IE (R46, R179). -/
theorem irq_completed (err : BitVec 4) (result used : Nat) (s : State) :
    (completed err result used s).irq = s.ie := Bool.and_true s.ie

/-- Settles O10: 0 is the encoding of svb.nop, whose run is the successful completion alone. -/
theorem nopCompletes : Obligations.NopCompletes := by
  refine ⟨decodeOfEncodeIsIdentity .nop rfl, fun w hne hop => ?_, fun s => ⟨?_, ?_⟩⟩
  · exact decode_op_nop_of_ne_zero hne ((toNat_opField w).trans hop)
  · exact congrArg Host.Outcome.next (complete_eq_completed 0 0 s)
  · exact irq_completed 0#4 0 0 s

end Sys2Proof.Machine
end

section
/-! The exceptions of 60_exceptions.md: the frame of a command's completion, and the idle engine. -/

namespace Sys2Proof.Machine

/-! ## The frame of a completion -/

/-- Success and error are one completion step, an error's with no byte stored (R175, R176). -/
theorem exec_next_completed {i : Instr} {s t : State} (h : exec i s = .next t) :
    ∃ err result used m, t = completed err result used { s with mem := m } := by
  obtain ⟨e, rfl⟩ | ⟨a, bs, result, used, -, rfl⟩ := exec_next h
  · exact ⟨errorCode e, 0, 0, s.mem, raiseError_eq_completed e s⟩
  · exact ⟨0#4, result, used, writeBytes s.mem a bs, complete_eq_completed _ _ (storeBytes a bs s)⟩

/-- Settles O48: a completion step names the fields it writes. -/
theorem commandChangesOnlyItsResults : Obligations.CommandChangesOnlyItsResults := by
  intro i s t h
  obtain ⟨err, result, used, m, rfl⟩ := exec_next_completed h
  rfl

/-! ## The idle engine -/

theorem engineTurn_of_idle {s : State} (hidle : s.status.busy = false) :
    engineTurn s = .next s := by
  simp [engineTurn, hidle]

/-- Settles O8: both forms of the engine's turn come to a turn with nothing active. -/
theorem idleEngineChangesNothing : Obligations.IdleEngineChangesNothing := by
  intro s hidle
  constructor
  · intro hinputs
    rw [step_of_no_input hinputs, engineTurn_of_idle hidle]
  · intro rest hinputs
    rw [step_of_engineSlot hinputs, engineTurn_of_idle (s := { s with inputs := rest }) hidle]

end Sys2Proof.Machine
end

section
/-! Hazard HZ1 (R208): a host write into a region of the active command. -/

namespace Sys2Proof.Machine

/-- A region meets `q` by the byte at an offset of its own. -/
theorem regionsMeet_of_offset {a n k : Nat} {q : Region} (hk : k < n)
    (hq : regionHas q (a + k) = true) : regionsMeet ⟨a, n⟩ q = true :=
  (regionsMeet_iff _ q).mpr
    ⟨a + k, decide_eq_true ⟨Nat.le_add_right a k, Nat.add_lt_add_left hk a⟩, hq⟩

/-- The check for the active regions stands before every other check of a host write. -/
theorem hostMemWrite_faults {addr : Word} {bs : List Byte} {s : State}
    (h : regionsMeet ⟨addr.toNat, bs.length⟩ (activeSource s) = true ∨
      regionsMeet ⟨addr.toNat, bs.length⟩ (activeWrite s) = true) :
    hostMemWrite addr bs s = .fault .hostWritesActiveRegion :=
  if_pos (Bool.or_eq_true_iff.mpr h)

/-- Settles O43: the byte the write shares with a region makes the two meet. -/
theorem hostWriteToActiveRegionFaults : Obligations.HostWriteToActiveRegionFaults := by
  intro s rest addr bs k hin hk hactive
  rw [step_of_hostSlot hin]
  exact hostMemWrite_faults (s := { s with inputs := rest })
    (hactive.imp (regionsMeet_of_offset hk) (regionsMeet_of_offset hk))

end Sys2Proof.Machine
end
